-- ==== Sys2Proof/Word.lean ====
section
/-! DEFINITION. The word types of the engine: 8-bit data, 4-bit addresses and nibbles (spec/00_scope.md R7, R9). -/

namespace Sys2Proof

/-- An 8-bit value: ACC, IR, TMP, OUT, a memory cell, the ALU (R7). -/
abbrev Byte := BitVec 8

/-- A 4-bit memory address: PC, MAR, the operand field (R7). -/
abbrev Addr := BitVec 4

/-- A 4-bit field of the instruction byte (R9). -/
abbrev Nibble := BitVec 4

end Sys2Proof
end

