-- ==== Sys2Proof/Config.lean ====
section
/-! DEFINITION. The parameters the spec fixes (spec/00_scope.md R7: none is left to an implementation). -/

namespace Sys2Proof.Config

/-- R7: the memory has 16 cells, at addresses 0 to 15. -/
def memCells : Nat := 16

/-- What a cell that the memory's list does not name reads as.
DESIGN CHOICE (entry 3): 0x00, the value 30_encoding.md R56 gives "a cell no line names". -/
def unlistedByte : Byte := 0

end Sys2Proof.Config
end

