-- ==== Sys2Proof/Syntax.lean ====
section
/-! DEFINITION. The instructions, one constructor per row of spec/opcode_table.json (spec/30_encoding.md R52), and the
program notation of R56. -/

namespace Sys2Proof

/-- The sixteen rows of the opcode table, each with its low nibble `[3:0]`. LDA, ADD and SUB use the nibble as an
address; every other row ignores it (R49, R53), and it is kept because the decoded view of IR shows it (R58) and
because encoding gives the byte back. `unrecK` is the unassigned opcode 0xK (R54, R92). -/
inductive Instr where
  | lda (a : Addr)
  | add (a : Addr)
  | sub (a : Addr)
  | out (x : Nibble)
  | hlt (x : Nibble)
  | unrec0 (x : Nibble)
  | unrec4 (x : Nibble)
  | unrec5 (x : Nibble)
  | unrec6 (x : Nibble)
  | unrec7 (x : Nibble)
  | unrec8 (x : Nibble)
  | unrec9 (x : Nibble)
  | unrecA (x : Nibble)
  | unrecB (x : Nibble)
  | unrecC (x : Nibble)
  | unrecD (x : Nibble)
deriving DecidableEq, Repr

/-- One item of the program notation of 30_encoding.md R56. The numbers are those of the text, before the loader has
admitted them, so they are plain naturals: `WellFormed.lean` says which are in range (60_exceptions.md R95). -/
inductive Item where
  | lda (a : Nat)
  | add (a : Nat)
  | sub (a : Nat)
  | out
  | hlt
  | data (v : Nat)
  | byte (v : Nat)
deriving DecidableEq, Repr

/-- A program text: a list of `address: item` lines (R56; the notation is the spec's own choice, D14, entry 23). -/
abbrev ProgramText := List (Nat × Item)

end Sys2Proof
end

