-- ==== Sys2Proof/WellFormed.lean ====
section
/-! DEFINITION. Which terms are well formed. An instruction always is (its operand is 4 bits wide: spec/20_memory.md R41,
"impossible by construction"); a program text is where its numbers are in range (60_exceptions.md R95). -/

namespace Sys2Proof

/-- Every instruction term is well formed: every nibble is a legal operand of every row (30_encoding.md R50, R51, R53),
and the types hold nothing else. One arm per constructor, so that a new row has to answer here. -/
def Instr.wellFormed : Instr → Bool
  | .lda _ | .add _ | .sub _ => true
  | .out _ | .hlt _ => true
  | .unrec0 _ | .unrec4 _ | .unrec5 _ | .unrec6 _ | .unrec7 _ | .unrec8 _ => true
  | .unrec9 _ | .unrecA _ | .unrecB _ | .unrecC _ | .unrecD _ => true

/-- R56: the address of LDA, ADD and SUB is 0 to 15; a DATA or BYTE value is 0 to 255. -/
def Item.wellFormed : Item → Bool
  | .lda a | .add a | .sub a => a < Config.memCells
  | .out | .hlt => true
  | .data v | .byte v => v < 256

/-- A program text is well formed where every line's address is a cell (R95: "address out of 0–15" is rejected), every
item is well formed, and no cell has two lines (DESIGN CHOICE, safe: R56 does not say what two lines would mean;
entry 18). -/
def ProgramText.wellFormed : ProgramText → Bool
  | [] => true
  | (n, it) :: rest =>
    decide (n < Config.memCells) && it.wellFormed && !(rest.map Prod.fst).elem n && ProgramText.wellFormed rest

end Sys2Proof
end

