-- ==== Sys2Proof/Decode.lean ====
section
/-! DEFINITION. Decoding and encoding the instruction byte (spec/30_encoding.md R49 to R55), and the encoding of the
program notation's items (R56). -/

namespace Sys2Proof

/-- R50: `opcode = IR >> 4 = IR[7:4]`. -/
def opcodeField (b : Byte) : Nibble := b.extractLsb' 4 4

/-- R50: `operand = IR & 0xF = IR[3:0]`, an unsigned 4-bit memory index. -/
def operandField (b : Byte) : Nibble := b.extractLsb' 0 4

/-- R52: the complete opcode map, from the opcode nibble and the operand nibble. -/
def instrOfFields (opcode operand : Nibble) : Instr :=
  match opcode.toFin with
  | 0x0 => .unrec0 operand
  | 0x1 => .lda operand
  | 0x2 => .add operand
  | 0x3 => .sub operand
  | 0x4 => .unrec4 operand
  | 0x5 => .unrec5 operand
  | 0x6 => .unrec6 operand
  | 0x7 => .unrec7 operand
  | 0x8 => .unrec8 operand
  | 0x9 => .unrec9 operand
  | 0xA => .unrecA operand
  | 0xB => .unrecB operand
  | 0xC => .unrecC operand
  | 0xD => .unrecD operand
  | 0xE => .out operand
  | 0xF => .hlt operand
  | ⟨_ + 16, h⟩ => absurd h (by omega)

/-- R51: the decoder is a total function of the byte; no encoding is illegal. -/
def decodeByte (b : Byte) : Instr := instrOfFields (opcodeField b) (operandField b)

/-- Why a list of bytes holds no instruction. No byte value is a reason (R51, R54). -/
inductive DecodeError where
  /-- Raised by `decode` on an empty list: there is no byte to read. Safe (the engine always has one, in IR). -/
  | noByte
deriving DecidableEq, Repr

/-- The first instruction of a list of bytes and the bytes after it. Every instruction is one byte (R49). -/
def decode : List Byte → Except DecodeError (Instr × List Byte)
  | [] => .error .noByte
  | b :: rest => .ok (decodeByte b, rest)

/-- The opcode of each row (R52). -/
def Instr.opcode : Instr → Nibble
  | .lda _ => 0x1
  | .add _ => 0x2
  | .sub _ => 0x3
  | .out _ => 0xE
  | .hlt _ => 0xF
  | .unrec0 _ => 0x0
  | .unrec4 _ => 0x4
  | .unrec5 _ => 0x5
  | .unrec6 _ => 0x6
  | .unrec7 _ => 0x7
  | .unrec8 _ => 0x8
  | .unrec9 _ => 0x9
  | .unrecA _ => 0xA
  | .unrecB _ => 0xB
  | .unrecC _ => 0xC
  | .unrecD _ => 0xD

/-- The operand nibble of each row, used or ignored (R49, R53). -/
def Instr.operand : Instr → Nibble
  | .lda x | .add x | .sub x | .out x | .hlt x => x
  | .unrec0 x | .unrec4 x | .unrec5 x | .unrec6 x | .unrec7 x | .unrec8 x => x
  | .unrec9 x | .unrecA x | .unrecB x | .unrecC x | .unrecD x => x

/-- R49: "Each byte is interpreted uniformly as `(opcode_nibble << 4) | operand_nibble`". -/
def encodeByte (i : Instr) : Byte := (i.opcode.setWidth 8 <<< 4) ||| i.operand.setWidth 8

/-- The bytes of an instruction: always one (R49). -/
def encode (i : Instr) : List Byte := [encodeByte i]

/-- Is the instruction HLT? The one row with no T5 and no T6 (40_sequencer.md R59). -/
def Instr.isHlt : Instr → Bool
  | .hlt _ => true
  | .lda _ | .add _ | .sub _ | .out _ => false
  | .unrec0 _ | .unrec4 _ | .unrec5 _ | .unrec6 _ | .unrec7 _ | .unrec8 _ => false
  | .unrec9 _ | .unrecA _ | .unrecB _ | .unrecC _ | .unrecD _ => false

/-- Does the instruction use its operand as a memory address? LDA, ADD and SUB do (R49). -/
def Instr.usesMemory : Instr → Bool
  | .lda _ | .add _ | .sub _ => true
  | .out _ | .hlt _ => false
  | .unrec0 _ | .unrec4 _ | .unrec5 _ | .unrec6 _ | .unrec7 _ | .unrec8 _ => false
  | .unrec9 _ | .unrecA _ | .unrecB _ | .unrecC _ | .unrecD _ => false

/-- The byte the notation of R56 gives each item. A number out of range has no byte: the item is not well formed. -/
def Item.encode (it : Item) : Option Byte :=
  if it.wellFormed then
    some (match it with
      | .lda a => BitVec.ofNat 8 (0x10 + a)
      | .add a => BitVec.ofNat 8 (0x20 + a)
      | .sub a => BitVec.ofNat 8 (0x30 + a)
      | .out => 0xE0
      | .hlt => 0xF0
      | .data v => BitVec.ofNat 8 v
      | .byte v => BitVec.ofNat 8 v)
  else none

/-- The byte at the lowest address of a table word of `nbits` bits: its bits 7..0, the bits above `nbits` being zero. -/
def firstByteOfTableWord (nbits w : Nat) : Byte := BitVec.ofNat 8 (w % 2 ^ nbits)

/-- The instruction the decoder reads from a table word of `nbits` bits: the word's one byte (R49) given to `decode`. -/
def decodeTableWord (nbits w : Nat) : Option Instr :=
  match decode [firstByteOfTableWord nbits w] with
  | .ok (i, _) => some i
  | .error _ => none

end Sys2Proof
end

