-- ==== Sys2Proof/Machine/State.lean ====
section
/-! DEFINITION. The state of the engine as plain data (spec/10_state.md), the state after reset, and the reasons a move is
refused. -/

namespace Sys2Proof.Machine

/-- The sequencer state (10_state.md R28). `Tk` for k from 1 to 6 is the last T-state performed; `T0` says that none has
been performed since construction or reset; `Halted` is terminal (R29). -/
inductive Phase where
  | T0 | T1 | T2 | T3 | T4 | T5 | T6 | Halted
deriving DecidableEq, Repr

/-- The closed set of 12 control signals (R24). -/
inductive Signal where
  | Cp | Ep | Lm | Ce | Li | Ei | La | Ea | Su | Eu | Lb | Lo
deriving DecidableEq, Repr

/-- The control-signal matrix, the fixed record of 12 named booleans (R24); true is asserted. -/
structure Signals where
  Cp : Bool
  Ep : Bool
  Lm : Bool
  Ce : Bool
  Li : Bool
  Ei : Bool
  La : Bool
  Ea : Bool
  Su : Bool
  Eu : Bool
  Lb : Bool
  Lo : Bool
deriving DecidableEq, Repr

/-- The matrix with no signal asserted, `{}` (00_scope.md R11). -/
def Signals.none : Signals :=
  { Cp := false, Ep := false, Lm := false, Ce := false, Li := false, Ei := false,
    La := false, Ea := false, Su := false, Eu := false, Lb := false, Lo := false }

/-- The names of the six registers (R12). -/
inductive Reg where
  | pc | mar | acc | ir | tmp | out
deriving DecidableEq, Repr

/-- The memory as a list of cells in one canonical form: addresses strictly rising, all below 16, and no cell listed with
the value an unlisted one reads as. -/
abbrev Memory := List Host.Cell

/-- The state of the engine (R32: this and nothing else). -/
structure State where
  /-- program counter (R15) -/
  pc : Addr
  /-- memory address register (R16) -/
  mar : Addr
  /-- accumulator (R17) -/
  acc : Byte
  /-- instruction register (R18) -/
  ir : Byte
  /-- temporary register, the ALU's second operand (R19) -/
  tmp : Byte
  /-- output register (R20) -/
  out : Byte
  /-- control-signal matrix (R24, R25) -/
  sig : Signals
  /-- sequencer state (R28) -/
  phase : Phase
  /-- the 16 memory cells (R30) -/
  mem : Memory
deriving DecidableEq, Repr

/-- Why the engine faults: it never does (60_exceptions.md R93, "A model has no fault outcome for any step of the engine"),
so the type has no constructor. -/
inductive Fault where
deriving DecidableEq, Repr

/-- Why a move is refused. -/
inductive Refusal where
  /-- Raised by `exec` for an instruction with no meaning yet. No arm raises it. Safe. -/
  | notModelled (mnemonic : String)
  /-- Raised by a meaning at phase T0, T1, T2 or T6, where no execute T-state is next (40_sequencer.md R72). `step` never
  calls one there. Safe. -/
  | noExecuteStateNext
  /-- Raised by HLT's meaning at phase T4 or T5: HLT has no T5 and no T6, and the phase is never T4, T5 or T6 while IR holds
  HLT (R59). No state that the driver's moves reach raises it. Safe. -/
  | hltHasNoLaterState
  /-- Raised by `fetchCycle` at T1 to T5: the driver has no such move (R74). Safe. -/
  | fetchCycleOffBoundary
  /-- Raised by `executeCycle` at T0 to T2 and T4 to T6: the driver has no such move (R75). Safe. -/
  | executeCycleOffT3
  /-- Raised by `runToHalt` at T1 to T5: the driver has no such move (R76). Safe. -/
  | runToHaltOffBoundary
  /-- Raised by `load` at every phase but T0: the driver has no load operation there (20_memory.md R38). Safe. -/
  | loadOffIdle
deriving DecidableEq, Repr

/-- The engine right after reset: every register 0, every signal false, phase T0 (10_state.md R34), and no cell listed
(the image of construction is the loader's; DESIGN CHOICE: nothing loaded is the all-zero image, entry 3). -/
def State.reset : State :=
  { pc := 0, mar := 0, acc := 0, ir := 0x00, tmp := 0, out := 0, sig := Signals.none, phase := .T0, mem := [] }

end Sys2Proof.Machine
end

