-- ==== Sys2Proof/Machine/Flags.lean ====
section
/-! DEFINITION. The control-signal sets. The engine has no status flag and no condition code (spec/10_state.md R23), so this
file computes none; "flags", in the source's words, are the 12 control signals (R24 to R27; 40_sequencer.md R62). -/

namespace Sys2Proof.Machine

/-- The matrix that asserts exactly the named signals, never more and never fewer (R25). The order does not matter
(00_scope.md R11). -/
def Signals.asserting (names : List Signal) : Signals :=
  { Cp := names.elem .Cp, Ep := names.elem .Ep, Lm := names.elem .Lm, Ce := names.elem .Ce,
    Li := names.elem .Li, Ei := names.elem .Ei, La := names.elem .La, Ea := names.elem .Ea,
    Su := names.elem .Su, Eu := names.elem .Eu, Lb := names.elem .Lb, Lo := names.elem .Lo }

/-- One signal of the matrix, by name (R24, "named accessors"). -/
def Signals.get (g : Signals) : Signal → Bool
  | .Cp => g.Cp
  | .Ep => g.Ep
  | .Lm => g.Lm
  | .Ce => g.Ce
  | .Li => g.Li
  | .Ei => g.Ei
  | .La => g.La
  | .Ea => g.Ea
  | .Su => g.Su
  | .Eu => g.Eu
  | .Lb => g.Lb
  | .Lo => g.Lo

/-- The matrix as a 12-bit word: bit 11 is Cp, down to bit 0, which is Lo (R27). The positions are the spec's own choice
(D3), so no claim about the hardware should rest on them (entry 8). -/
def Signals.toWord (g : Signals) : BitVec 12 :=
  BitVec.ofBoolListBE [g.Cp, g.Ep, g.Lm, g.Ce, g.Li, g.Ei, g.La, g.Ea, g.Su, g.Eu, g.Lb, g.Lo]

/-- The table of 40_sequencer.md R62: the set asserted by the T-state that leads to `phase`, for the instruction in IR.
T0 and Halted: no T-state has asserted anything (R25), or HLT's T4 asserted `{}`. For HLT the T5 and T6 rows are "not
performed". The meanings do not read this table: it is written from R62, they from their own rules. -/
def signalTable (phase : Phase) (i : Instr) : Signals :=
  match phase with
  | .T0 => .none
  | .T1 => .asserting [.Ep, .Lm]
  | .T2 => .asserting [.Ce, .Li]
  | .T3 => .none
  | .T4 =>
    match i with
    | .lda _ | .add _ | .sub _ => .asserting [.Ei, .Lm]
    | .out _ => .asserting [.Ea, .Lo]
    | .hlt _ => .none
    | .unrec0 _ | .unrec4 _ | .unrec5 _ | .unrec6 _ | .unrec7 _ | .unrec8 _ => .none
    | .unrec9 _ | .unrecA _ | .unrecB _ | .unrecC _ | .unrecD _ => .none
  | .T5 =>
    match i with
    | .lda _ => .asserting [.La]
    | .add _ | .sub _ => .asserting [.Lb]
    | .out _ | .hlt _ => .none
    | .unrec0 _ | .unrec4 _ | .unrec5 _ | .unrec6 _ | .unrec7 _ | .unrec8 _ => .none
    | .unrec9 _ | .unrecA _ | .unrecB _ | .unrecC _ | .unrecD _ => .none
  | .T6 =>
    match i with
    | .add _ => .asserting [.Ea, .Eu, .La]
    | .sub _ => .asserting [.Ea, .Eu, .La, .Su]
    | .lda _ | .out _ | .hlt _ => .none
    | .unrec0 _ | .unrec4 _ | .unrec5 _ | .unrec6 _ | .unrec7 _ | .unrec8 _ => .none
    | .unrec9 _ | .unrecA _ | .unrecB _ | .unrecC _ | .unrecD _ => .none
  | .Halted => .none

end Sys2Proof.Machine
end

