-- ==== Sys2Proof/Machine/Ops.lean ====
section
/-! DEFINITION. The named operations over memory and registers. The engine has no exception, no interrupt and no trap
(spec/60_exceptions.md R93, R96, R98, R99), so there is no exception entry and no return from one here. -/

namespace Sys2Proof.Machine

/-! ## Memory -/

/-- The value listed for an address, or what an unlisted cell reads as. -/
def Memory.lookup : Memory → Nat → Byte
  | [], _ => Config.unlistedByte
  | (k, v) :: rest, n => if k = n then v else Memory.lookup rest n

/-- `MemRead(a, 1)`, also written `mem[a]`: the 8-bit cell at a 4-bit address (20_memory.md R36). An address out of range
cannot be expressed (R41). -/
def Memory.read (m : Memory) (a : Addr) : Byte := Memory.lookup m a.toNat

/-- Set the cell numbered `n`, keeping the canonical form: a cell set to what an unlisted one reads as is not listed. The
engine itself never calls it (10_state.md R31). -/
def Memory.set : Memory → Nat → Byte → Memory
  | [], n, b => if b = Config.unlistedByte then [] else [(n, b)]
  | (k, v) :: rest, n, b =>
    if n < k then (if b = Config.unlistedByte then (k, v) :: rest else (n, b) :: (k, v) :: rest)
    else if n = k then (if b = Config.unlistedByte then rest else (n, b) :: rest)
    else (k, v) :: Memory.set rest n b

/-- Set the cell at a 4-bit address. -/
def Memory.write (m : Memory) (a : Addr) (b : Byte) : Memory := Memory.set m a.toNat b

/-- The canonical form of the cells from address `lo` up. -/
def Memory.wfFrom (lo : Nat) : Memory → Bool
  | [] => true
  | (k, v) :: rest =>
    decide (lo ≤ k) && decide (k < Config.memCells) && decide (v ≠ Config.unlistedByte) && Memory.wfFrom (k + 1) rest

/-- The canonical form: addresses strictly rising, all of them cells, no cell listed with what an unlisted one reads as. -/
def Memory.wf (m : Memory) : Bool := Memory.wfFrom 0 m

/-- The image the loader supplies: exactly 16 bytes (20_memory.md R38; 70_reset.md R106). -/
abbrev Image := Vector Byte 16

/-- The cells of a run of bytes that starts at address `lo`. -/
def Memory.ofBytes (lo : Nat) : List Byte → Memory
  | [] => []
  | b :: rest => if b = Config.unlistedByte then Memory.ofBytes (lo + 1) rest else (lo, b) :: Memory.ofBytes (lo + 1) rest

/-- The memory whose 16 cells hold the image. -/
def Memory.ofImage (img : Image) : Memory := Memory.ofBytes 0 img.toList

/-! ## Registers -/

/-- The declared width of each register (10_state.md R12). -/
def Reg.width : Reg → Nat
  | .pc | .mar => 4
  | .acc | .ir | .tmp | .out => 8

/-- `R[name]`: the value of a register (R14). -/
def State.getReg (s : State) : Reg → Nat
  | .pc => s.pc.toNat
  | .mar => s.mar.toNat
  | .acc => s.acc.toNat
  | .ir => s.ir.toNat
  | .tmp => s.tmp.toNat
  | .out => s.out.toNat

/-- `R[name] <- v`: the value is masked to the register's width, "truncation, never a fault" (R13). -/
def State.setReg (s : State) (r : Reg) (v : Nat) : State :=
  match r with
  | .pc => { s with pc := BitVec.ofNat 4 v }
  | .mar => { s with mar := BitVec.ofNat 4 v }
  | .acc => { s with acc := BitVec.ofNat 8 v }
  | .ir => { s with ir := BitVec.ofNat 8 v }
  | .tmp => { s with tmp := BitVec.ofNat 8 v }
  | .out => { s with out := BitVec.ofNat 8 v }

/-- The commit of one T-state (40_sequencer.md R60): all its register writes, its signal set and its phase together. The
values are computed by the caller from the state before the T-state. A T-state asserts its set on a fresh matrix
(10_state.md R25). -/
def State.commit (s : State) (phase : Phase) (asserted : List Signal) (writes : List (Reg × Nat)) : State :=
  { writes.foldl (fun t w => t.setReg w.1 w.2) s with phase := phase, sig := Signals.asserting asserted }

/-! ## The execute T-states -/

/-- The outcomes of the engine. -/
abbrev Result := Host.Outcome State Fault Refusal

/-- Dispatch of an instruction's execute T-states on the phase (40_sequencer.md R69, R72): T4 is next when the phase is T3,
T5 when it is T4, T6 when it is T5. A Halted engine changes nothing (R73). At any other phase no execute T-state is next
(refused, safe: D6, entry 4). -/
def executeState (s : State) (t4 t5 t6 : Result) : Result :=
  match s.phase with
  | .T3 => t4
  | .T4 => t5
  | .T5 => t6
  | .Halted => .next s
  | .T0 | .T1 | .T2 | .T6 => .refused .noExecuteStateNext

/-! ## Reset and construction -/

/-- Reset: "reinitializes everything to the construction-time state; it does not reload memory" (70_reset.md R107). -/
def State.resetEngine (s : State) : State :=
  { pc := 0, mar := 0, acc := 0, ir := 0x00, tmp := 0, out := 0, sig := Signals.none, phase := .T0, mem := s.mem }

/-- Construction from exactly 16 bytes supplied by the loader (70_reset.md R106). -/
def State.construct (img : Image) : State :=
  { pc := 0, mar := 0, acc := 0, ir := 0x00, tmp := 0, out := 0, sig := Signals.none, phase := .T0,
    mem := Memory.ofImage img }

end Sys2Proof.Machine
end

