-- ==== Sys2Proof/Machine/Operands.lean ====
section
/-! DEFINITION. The one operand form: a direct 4-bit memory address (spec/30_encoding.md R50). -/

namespace Sys2Proof.Machine

/-- The address an operand names: the field exactly as it stands, "not sign-extended, not scaled and not offset" (R50). -/
def operandAddress (a : Nibble) : Addr := a

/-- The cell every memory read returns: `mem[MAR]` (20_memory.md R37). -/
def cellAtMar (s : State) : Byte := s.mem.read s.mar

end Sys2Proof.Machine
end

