-- ==== Sys2Proof/Machine/Arith.lean ====
section
/-! DEFINITION. The ALU, ADD and SUB (spec/42_arith.md R85 to R89). -/

namespace Sys2Proof.Machine

/-- R85: `(subtract ? acc - tmp : acc + tmp) mod 256`, computed exactly on the integers and then narrowed to 8 bits. -/
def alu (acc tmp : Byte) (subtract : Bool) : Byte :=
  BitVec.ofInt 8 (if subtract then (acc.toNat : Int) - (tmp.toNat : Int) else (acc.toNat : Int) + (tmp.toNat : Int))

/-- R88: "ADD | assert {Ei,Lm}; MAR←operand | assert {Lb}; TMP←memory[MAR] | assert {Ea,Eu,La}; ACC←(ACC+TMP) mod 256". -/
def execAdd (a : Nibble) (s : State) : Result :=
  executeState s
    (.next (s.commit .T4 [.Ei, .Lm] [(.mar, (operandAddress a).toNat)]))
    (.next (s.commit .T5 [.Lb] [(.tmp, (cellAtMar s).toNat)]))
    (.next (s.commit .T6 [.Ea, .Eu, .La] [(.acc, (alu s.acc s.tmp false).toNat)]))

/-- R89: "SUB | assert {Ei,Lm}; MAR←operand | assert {Lb}; TMP←memory[MAR] | assert {Ea,Eu,La,Su}; ACC←(ACC−TMP) mod 256". -/
def execSub (a : Nibble) (s : State) : Result :=
  executeState s
    (.next (s.commit .T4 [.Ei, .Lm] [(.mar, (operandAddress a).toNat)]))
    (.next (s.commit .T5 [.Lb] [(.tmp, (cellAtMar s).toNat)]))
    (.next (s.commit .T6 [.Ea, .Eu, .La, .Su] [(.acc, (alu s.acc s.tmp true).toNat)]))

end Sys2Proof.Machine
end

