-- ==== Sys2Proof/Machine/Control.lean ====
section
/-! DEFINITION. HLT and the unrecognized opcodes (spec/44_control.md R91, R92). -/

namespace Sys2Proof.Machine

/-- R91: "HLT | assert {}; enter Halted, return terminal=true | — | —". T5 and T6 are not performed: the phase is never T4
or T5 while IR holds HLT (40_sequencer.md R59), and a state that says otherwise is refused (safe, entry 5). The operand
nibble is ignored (30_encoding.md R53). -/
def execHlt (_x : Nibble) (s : State) : Result :=
  executeState s
    (.next (s.commit .Halted [] []))
    (.refused .hltHasNoLaterState)
    (.refused .hltHasNoLaterState)

/-- R92: "unrecognized (any other nibble) | assert {}; behaves as a full no-op for all of T4–T6". The shared operation of
the eleven unassigned opcodes; the operand nibble is ignored. -/
def noOpCycle (s : State) : Result :=
  executeState s
    (.next (s.commit .T4 [] []))
    (.next (s.commit .T5 [] []))
    (.next (s.commit .T6 [] []))

/-- Opcode 0x0: a no-op cycle (R92). -/
def execUnrec0 (_x : Nibble) (s : State) : Result := noOpCycle s

/-- Opcode 0x4: a no-op cycle (R92). -/
def execUnrec4 (_x : Nibble) (s : State) : Result := noOpCycle s

/-- Opcode 0x5: a no-op cycle (R92). -/
def execUnrec5 (_x : Nibble) (s : State) : Result := noOpCycle s

/-- Opcode 0x6: a no-op cycle (R92). -/
def execUnrec6 (_x : Nibble) (s : State) : Result := noOpCycle s

/-- Opcode 0x7: a no-op cycle (R92). -/
def execUnrec7 (_x : Nibble) (s : State) : Result := noOpCycle s

/-- Opcode 0x8: a no-op cycle (R92). -/
def execUnrec8 (_x : Nibble) (s : State) : Result := noOpCycle s

/-- Opcode 0x9: a no-op cycle (R92). -/
def execUnrec9 (_x : Nibble) (s : State) : Result := noOpCycle s

/-- Opcode 0xA: a no-op cycle (R92). -/
def execUnrecA (_x : Nibble) (s : State) : Result := noOpCycle s

/-- Opcode 0xB: a no-op cycle (R92). -/
def execUnrecB (_x : Nibble) (s : State) : Result := noOpCycle s

/-- Opcode 0xC: a no-op cycle (R92). -/
def execUnrecC (_x : Nibble) (s : State) : Result := noOpCycle s

/-- Opcode 0xD: a no-op cycle (R92). -/
def execUnrecD (_x : Nibble) (s : State) : Result := noOpCycle s

end Sys2Proof.Machine
end

