-- ==== Sys2Proof/Machine/Load.lean ====
section
/-! DEFINITION. LDA (spec/41_load.md R84). -/

namespace Sys2Proof.Machine

/-- R84: "LDA | assert {Ei,Lm}; MAR←operand | assert {La}; ACC←memory[MAR] | assert {}". -/
def execLda (a : Nibble) (s : State) : Result :=
  executeState s
    (.next (s.commit .T4 [.Ei, .Lm] [(.mar, (operandAddress a).toNat)]))
    (.next (s.commit .T5 [.La] [(.acc, (cellAtMar s).toNat)]))
    (.next (s.commit .T6 [] []))

end Sys2Proof.Machine
end

