-- ==== Sys2Proof/Machine/Output.lean ====
section
/-! DEFINITION. OUT (spec/43_output.md R90). -/

namespace Sys2Proof.Machine

/-- R90: "OUT | assert {Ea,Lo}; OUT←ACC | assert {} | assert {}". The operand nibble is ignored (30_encoding.md R53). -/
def execOut (_x : Nibble) (s : State) : Result :=
  executeState s
    (.next (s.commit .T4 [.Ea, .Lo] [(.out, s.acc.toNat)]))
    (.next (s.commit .T5 [] []))
    (.next (s.commit .T6 [] []))

end Sys2Proof.Machine
end

