-- ==== Sys2Proof/Machine/Dispatch.lean ====
section
/-! DEFINITION. The dispatch of the execute T-states (spec/40_sequencer.md R69): one arm per row of the opcode table. -/

namespace Sys2Proof.Machine

/-- The next execute T-state of the instruction `i` at `s` (R69): T4 when the phase is T3, T5 when it is T4, T6 when it is
T5. -/
def exec (i : Instr) (s : State) : Host.Outcome State Fault Refusal :=
  match i with
  | .lda a => Sys2Proof.Machine.execLda a s
  | .add a => Sys2Proof.Machine.execAdd a s
  | .sub a => Sys2Proof.Machine.execSub a s
  | .out x => Sys2Proof.Machine.execOut x s
  | .hlt x => Sys2Proof.Machine.execHlt x s
  | .unrec0 x => Sys2Proof.Machine.execUnrec0 x s
  | .unrec4 x => Sys2Proof.Machine.execUnrec4 x s
  | .unrec5 x => Sys2Proof.Machine.execUnrec5 x s
  | .unrec6 x => Sys2Proof.Machine.execUnrec6 x s
  | .unrec7 x => Sys2Proof.Machine.execUnrec7 x s
  | .unrec8 x => Sys2Proof.Machine.execUnrec8 x s
  | .unrec9 x => Sys2Proof.Machine.execUnrec9 x s
  | .unrecA x => Sys2Proof.Machine.execUnrecA x s
  | .unrecB x => Sys2Proof.Machine.execUnrecB x s
  | .unrecC x => Sys2Proof.Machine.execUnrecC x s
  | .unrecD x => Sys2Proof.Machine.execUnrecD x s

end Sys2Proof.Machine
end

