-- ==== Sys2Proof/Machine/Fetch.lean ====
section
/-! DEFINITION. The fetch cycle T1 to T3, the same for every opcode (spec/40_sequencer.md R65 to R67). -/

namespace Sys2Proof.Machine

/-- "T1: assert {Ep, Lm}; MAR ← PC." (R65) -/
def fetchT1 (s : State) : State := s.commit .T1 [.Ep, .Lm] [(.mar, s.pc.toNat)]

/-- "T2: assert {Ce, Li}; IR ← memory[MAR]; PC ← (PC + 1) mod 16." (R66). Cp is not asserted (R63). -/
def fetchT2 (s : State) : State := s.commit .T2 [.Ce, .Li] [(.ir, (cellAtMar s).toNat), (.pc, s.pc.toNat + 1)]

/-- "T3: assert {} (no signals); decode opcode/operand from IR (pure read, no mutation)." (R67) -/
def fetchT3 (s : State) : State := s.commit .T3 [] []

end Sys2Proof.Machine
end

