-- ==== Sys2Proof/Machine/Step.lean ====
section
/-! DEFINITION. One step of the engine is one T-state (spec/40_sequencer.md R72). -/

namespace Sys2Proof.Machine

/-- `step()` performs one T-state (R72). The T-states T4, T5 and T6 are those of the opcode in IR, which each of them decodes
anew (R69). A Halted engine changes nothing (R73). The terminal result is `State.terminal` of the state after
(Machine/Driver.lean). -/
def step (s : State) : Host.Outcome State Fault Refusal :=
  match s.phase with
  | .T0 | .T6 => .next (fetchT1 s)
  | .T1 => .next (fetchT2 s)
  | .T2 => .next (fetchT3 s)
  | .T3 | .T4 | .T5 => exec (decodeByte s.ir) s
  | .Halted => .next s

/-- `s` with the table word stored as the instruction at the program counter and fetched: the cell at PC holds the byte, and
the fetch cycle T1 to T3 has run on it (entry 2). A step is one T-state, so this is what it takes for the very next step
to be the instruction's own T4. -/
def State.withFetchWord (s : State) (nbits w : Nat) : State :=
  fetchT3 (fetchT2 (fetchT1 { s with mem := s.mem.write s.pc (firstByteOfTableWord nbits w) }))

end Sys2Proof.Machine
end

