-- ==== Sys2Proof/Machine/Observe.lean ====
section
/-! DEFINITION. The observation API: what the driver reads at a T-state boundary, without changing any state
(spec/40_sequencer.md R81 to R83; 30_encoding.md R58). -/

namespace Sys2Proof.Machine

/-- The five mnemonics of the instruction set (30_encoding.md R52). -/
inductive Mnemonic where
  | LDA | ADD | SUB | OUT | HLT
deriving DecidableEq, Repr

/-- The decoded view of IR: a mnemonic and the operand, shown for every opcode; for an unrecognized opcode the opcode
nibble stands in place of a mnemonic (R58, D10). -/
inductive DecodedView where
  | known (m : Mnemonic) (operand : Nibble)
  | unknown (opcode : Nibble) (operand : Nibble)
deriving DecidableEq, Repr

/-- The decoded view of an instruction byte (R58). -/
def decodedView (b : Byte) : DecodedView :=
  match decodeByte b with
  | .lda a => .known .LDA a
  | .add a => .known .ADD a
  | .sub a => .known .SUB a
  | .out x => .known .OUT x
  | .hlt x => .known .HLT x
  | .unrec0 x => .unknown 0x0 x
  | .unrec4 x => .unknown 0x4 x
  | .unrec5 x => .unknown 0x5 x
  | .unrec6 x => .unknown 0x6 x
  | .unrec7 x => .unknown 0x7 x
  | .unrec8 x => .unknown 0x8 x
  | .unrec9 x => .unknown 0x9 x
  | .unrecA x => .unknown 0xA x
  | .unrecB x => .unknown 0xB x
  | .unrecC x => .unknown 0xC x
  | .unrecD x => .unknown 0xD x

/-- A mnemonic as the source writes it. -/
def Mnemonic.text : Mnemonic → String
  | .LDA => "LDA"
  | .ADD => "ADD"
  | .SUB => "SUB"
  | .OUT => "OUT"
  | .HLT => "HLT"

/-- A nibble as one hexadecimal digit. Capitals above 9 are a DESIGN CHOICE (entry 12): the spec's one example is `op=4`. -/
def hexDigit (n : Nibble) : String :=
  if n.toNat < 10 then String.singleton (Char.ofNat (48 + n.toNat)) else String.singleton (Char.ofNat (55 + n.toNat))

/-- A nibble in decimal, as the spec's examples show an operand (`ADD 10`). -/
def decimal (n : Nibble) : String :=
  if n.toNat < 10 then String.singleton (Char.ofNat (48 + n.toNat))
  else "1" ++ String.singleton (Char.ofNat (38 + n.toNat))

/-- The text of the view: `LDA 9`, `HLT 3`, `??? op=4` (R58; D10). -/
def DecodedView.text : DecodedView → String
  | .known m x => m.text ++ " " ++ decimal x
  | .unknown op _ => "??? op=" ++ hexDigit op

/-- A full register snapshot (R81). -/
structure RegSnapshot where
  pc : Addr
  mar : Addr
  acc : Byte
  ir : Byte
  tmp : Byte
  out : Byte
deriving DecidableEq, Repr

/-- What one observation shows: the four items of R81 and nothing else, no memory among them. -/
structure Observation where
  phase : Phase
  regs : RegSnapshot
  sig : Signals
  view : DecodedView
deriving DecidableEq, Repr

/-- The observation of a state at a T-state boundary (R81). -/
def State.observe (s : State) : Observation :=
  { phase := s.phase
    regs := { pc := s.pc, mar := s.mar, acc := s.acc, ir := s.ir, tmp := s.tmp, out := s.out }
    sig := s.sig
    view := decodedView s.ir }

/-- R83: the bus value of the T-state last performed, read at the boundary after it; none where its signal set is `{}`. Each
row's expression has the same value after the T-state as in it. All but T6 of ADD and SUB is the spec's own decision (D9,
entry 11). A 4-bit value is widened with zeros. -/
def State.busValue (s : State) : Option Byte :=
  match s.phase with
  | .T0 | .T3 | .Halted => none
  | .T1 => some (s.pc.setWidth 8)
  | .T2 => some (cellAtMar s)
  | .T4 =>
    match decodeByte s.ir with
    | .lda a | .add a | .sub a => some ((operandAddress a).setWidth 8)
    | .out _ => some s.acc
    | .hlt _ => none
    | .unrec0 _ | .unrec4 _ | .unrec5 _ | .unrec6 _ | .unrec7 _ | .unrec8 _ => none
    | .unrec9 _ | .unrecA _ | .unrecB _ | .unrecC _ | .unrecD _ => none
  | .T5 =>
    match decodeByte s.ir with
    | .lda _ | .add _ | .sub _ => some (cellAtMar s)
    | .out _ | .hlt _ => none
    | .unrec0 _ | .unrec4 _ | .unrec5 _ | .unrec6 _ | .unrec7 _ | .unrec8 _ => none
    | .unrec9 _ | .unrecA _ | .unrecB _ | .unrecC _ | .unrecD _ => none
  | .T6 =>
    match decodeByte s.ir with
    | .add _ | .sub _ => some s.acc
    | .lda _ | .out _ | .hlt _ => none
    | .unrec0 _ | .unrec4 _ | .unrec5 _ | .unrec6 _ | .unrec7 _ | .unrec8 _ => none
    | .unrec9 _ | .unrecA _ | .unrecB _ | .unrecC _ | .unrecD _ => none

end Sys2Proof.Machine
end

