-- ==== Sys2Proof/Machine/Loader.lean ====
section
/-! DEFINITION. The loader's interface: the program notation as an image (spec/30_encoding.md R56), and the load
(20_memory.md R38). -/

namespace Sys2Proof.Machine

/-- The byte a program text puts into cell `n`: its line's, or 0x00 where no line names the cell (R56). -/
def programByte (p : ProgramText) (n : Nat) : Byte :=
  match p with
  | [] => 0x00
  | (k, it) :: rest => if k = n then it.encode.getD 0x00 else programByte rest n

/-- The 16-byte image of a program text; a malformed text is rejected and never reaches the engine (60_exceptions.md R95). -/
def assemble (p : ProgramText) : Option Image :=
  if ProgramText.wellFormed p then some (Vector.ofFn fun k : Fin 16 => programByte p k.val) else none

/-- The loader's memory load: all 16 cells at once, and only at phase T0 (20_memory.md R38; D8, entry 7). -/
def load (img : Image) (s : State) : Result :=
  match s.phase with
  | .T0 => .next { s with mem := Memory.ofImage img }
  | .T1 | .T2 | .T3 | .T4 | .T5 | .T6 | .Halted => .refused .loadOffIdle

end Sys2Proof.Machine
end

