-- ==== Sys2Proof/Machine/Driver.lean ====
section
/-! DEFINITION. The driver's operations (spec/40_sequencer.md R72 to R76; 70_reset_and_hazards.md R107; 20_memory.md R38), each
built from `step`. -/

namespace Sys2Proof.Machine

/-- The outcome of one move followed by another: a fault or a refusal of the first ends it. -/
def andThen {α β : Type} (o : Host.Outcome α Fault Refusal) (f : α → Host.Outcome β Fault Refusal) :
    Host.Outcome β Fault Refusal :=
  match o with
  | .next a => f a
  | .fault r => .fault r
  | .refused r => .refused r

/-- The terminal result: the phase is Halted (R72; D15). -/
def State.terminal (s : State) : Bool := decide (s.phase = .Halted)

/-- A state and the terminal result the operation returns with it. -/
structure Stepped where
  state : State
  terminal : Bool
deriving DecidableEq, Repr

/-- The driver's single step, with its terminal result (R72). -/
def driverStep (s : State) : Host.Outcome Stepped Fault Refusal :=
  andThen (step s) fun t => .next { state := t, terminal := t.terminal }

/-- `fetch_cycle()` (R74): T1, T2, T3 from T0 or T6; when Halted no state changes and terminal is reported (D5, entry 20); no
such move elsewhere. -/
def fetchCycle (s : State) : Host.Outcome Stepped Fault Refusal :=
  match s.phase with
  | .T0 | .T6 => andThen (step s) fun s1 => andThen (step s1) driverStep
  | .Halted => .next { state := s, terminal := true }
  | .T1 | .T2 | .T3 | .T4 | .T5 => .refused .fetchCycleOffBoundary

/-- Step until the phase is T6 or Halted, at most `fuel` times (R75: three are enough). -/
def stepToCycleEnd : Nat → State → Host.Outcome Stepped Fault Refusal
  | 0, s => .next { state := s, terminal := s.terminal }
  | fuel + 1, s =>
    match s.phase with
    | .T6 | .Halted => .next { state := s, terminal := s.terminal }
    | .T0 | .T1 | .T2 | .T3 | .T4 | .T5 => andThen (step s) (stepToCycleEnd fuel)

/-- `execute_cycle()` (R75): from T3 it steps until the phase is T6 or Halted; nothing when Halted; no such move
elsewhere. -/
def executeCycle (s : State) : Host.Outcome Stepped Fault Refusal :=
  match s.phase with
  | .T3 => stepToCycleEnd 3 s
  | .Halted => .next { state := s, terminal := true }
  | .T0 | .T1 | .T2 | .T4 | .T5 | .T6 => .refused .executeCycleOffT3

/-- A cycle: "one fetch cycle followed by one execute cycle" (00_scope.md, glossary). -/
def cycle (s : State) : Host.Outcome Stepped Fault Refusal :=
  andThen (fetchCycle s) fun r => executeCycle r.state

/-- What `run_to_halt` returns: the state, whether it halted or was capped, and the cycles performed (R76; D7). -/
structure RunResult where
  state : State
  halted : Bool
  cycles : Nat
deriving DecidableEq, Repr

/-- The loop of R76: `budget` cycles may still be performed, `performed` have been. The check for halting comes after each
cycle. -/
def runCycles : Nat → Nat → State → Host.Outcome RunResult Fault Refusal
  | 0, performed, s => .next { state := s, halted := false, cycles := performed }
  | budget + 1, performed, s =>
    andThen (cycle s) fun r =>
      if r.terminal then .next { state := r.state, halted := true, cycles := performed + 1 }
      else runCycles budget (performed + 1) r.state

/-- `run_to_halt(max_cycles)` (R76). -/
def runToHalt (maxCycles : Nat) (s : State) : Host.Outcome RunResult Fault Refusal :=
  match s.phase with
  | .Halted => .next { state := s, halted := true, cycles := 0 }
  | .T0 | .T6 => runCycles maxCycles 0 s
  | .T1 | .T2 | .T3 | .T4 | .T5 => .refused .runToHaltOffBoundary

/-- Everything that acts on the engine from outside (R82; 60_exceptions.md R96). -/
inductive DriverOp where
  | step
  | fetchCycle
  | executeCycle
  | runToHalt (maxCycles : Nat)
  | reset
  | load (img : Image)
deriving DecidableEq, Repr

/-- The state a driver operation leaves, or its refusal. Reset is allowed at every T-state boundary (70_reset.md R107;
D18). -/
def drive (op : DriverOp) (s : State) : Result :=
  match op with
  | .step => Sys2Proof.Machine.step s
  | .fetchCycle => andThen (Sys2Proof.Machine.fetchCycle s) fun r => .next r.state
  | .executeCycle => andThen (Sys2Proof.Machine.executeCycle s) fun r => .next r.state
  | .runToHalt n => andThen (Sys2Proof.Machine.runToHalt n s) fun r => .next r.state
  | .reset => .next s.resetEngine
  | .load img => Sys2Proof.Machine.load img s

/-- The T-states of one cycle of an instruction (70_reset.md R112): T1 to T6, and T1 to T4 for HLT. -/
def cycleTStates (i : Instr) : Nat := if i.isHlt then 4 else 6

end Sys2Proof.Machine
end

