-- ==== Sys2Proof/Safety.lean ====
section
/-! DEFINITION. What counts as a safe run, the invariant of the engine, and the tables of the spec that speak of all
T-states at once (spec/10_state.md R21; 40_sequencer.md R59). The machine reads nothing of this file. -/

namespace Sys2Proof.Machine

/-- The transitions of the phase, the table of 40_sequencer.md R59, by the phase before and the instruction in IR. -/
def phaseAfter (p : Phase) (i : Instr) : Phase :=
  match p with
  | .T0 | .T6 => .T1
  | .T1 => .T2
  | .T2 => .T3
  | .T3 => if i.isHlt then .Halted else .T4
  | .T4 => .T5
  | .T5 => .T6
  | .Halted => .Halted

/-- The registers that a T-state writes, the "write" entries of the table of 10_state.md R21, by the phase the T-state leads
to and the instruction in IR. -/
def tabledWrites (after : Phase) (i : Instr) : List Reg :=
  match after, i with
  | .T1, _ => [.mar]
  | .T2, _ => [.pc, .ir]
  | .T4, .lda _ => [.mar]
  | .T4, .add _ => [.mar]
  | .T4, .sub _ => [.mar]
  | .T4, .out _ => [.out]
  | .T5, .lda _ => [.acc]
  | .T5, .add _ => [.tmp]
  | .T5, .sub _ => [.tmp]
  | .T6, .add _ => [.acc]
  | .T6, .sub _ => [.acc]
  | _, _ => []

/-- At a cycle boundary: no T-state is under way (40_sequencer.md R74, R76). -/
abbrev State.AtBoundary (s : State) : Prop := s.phase = .T0 ∨ s.phase = .T6

/-- The phases in which an instruction's own T-states have begun. -/
abbrev State.Executing (s : State) : Prop := s.phase = .T4 ∨ s.phase = .T5 ∨ s.phase = .T6

/-- The matrix is the entry of the signal table for the last T-state performed (40_sequencer.md R62; 10_state.md R25). -/
abbrev State.SigTabled (s : State) : Prop := s.sig = signalTable s.phase (decodeByte s.ir)

/-- At T0 every register holds its reset value (10_state.md R34). -/
abbrev State.IdleIsZero (s : State) : Prop :=
  s.phase = .T0 → s.pc = 0 ∧ s.mar = 0 ∧ s.acc = 0 ∧ s.ir = 0 ∧ s.tmp = 0 ∧ s.out = 0

/-- Halted is entered only by a decoded HLT, and the phase is never T4, T5 or T6 while IR holds one (40_sequencer.md R59). -/
abbrev State.HltDiscipline (s : State) : Prop :=
  (s.phase = .Halted → (decodeByte s.ir).isHlt = true) ∧ (s.Executing → (decodeByte s.ir).isHlt = false)

/-- From T2 of a cycle to its end, IR holds the byte of the cell before PC (30_encoding.md R55; 20_memory.md R47). -/
abbrev State.IrFetched (s : State) : Prop :=
  s.phase = .T2 ∨ s.phase = .T3 ∨ s.Executing ∨ s.phase = .Halted → s.ir = s.mem.read (s.pc - 1)

/-- What MAR holds (10_state.md R16; 20_memory.md R37): PC after T1, the instruction's own address after T2, and from T4 on
the operand where the instruction uses one. -/
abbrev State.MarTracks (s : State) : Prop :=
  (s.phase = .T1 → s.mar = s.pc) ∧
  (s.phase = .T2 ∨ s.phase = .T3 ∨ s.phase = .Halted → s.mar = s.pc - 1) ∧
  (s.Executing → s.mar = if (decodeByte s.ir).usesMemory then operandField s.ir else s.pc - 1)

/-- After T5 the operand's cell stands where the instruction puts it, and after T4 of OUT the output register is ACC
(41_load.md R84; 42_arith.md R88, R89; 43_output.md R90). -/
abbrev State.DataTracks (s : State) : Prop :=
  (s.phase = .T5 ∨ s.phase = .T6 → opcodeField s.ir = 0x1 → s.acc = s.mem.read (operandField s.ir)) ∧
  (s.phase = .T5 ∨ s.phase = .T6 → opcodeField s.ir = 0x2 ∨ opcodeField s.ir = 0x3 →
    s.tmp = s.mem.read (operandField s.ir)) ∧
  (s.Executing → opcodeField s.ir = 0xE → s.out = s.acc)

/-- The invariant of the engine: what every state that the driver's moves reach satisfies. -/
abbrev State.Coherent (s : State) : Prop :=
  s.mem.wf = true ∧ s.SigTabled ∧ s.IdleIsZero ∧ s.HltDiscipline ∧ s.IrFetched ∧ s.MarTracks ∧ s.DataTracks

/-- `k` T-states from `s`, as the host's interface runs them. -/
def runSteps (k : Nat) (s : State) : Result := Host.Core.run Sys2Proof.core k s

/-- A safe run: `k` steps from `s` end in a state, with no fault and no refusal (60_exceptions.md R93). -/
def SafeRun (k : Nat) (s : State) : Prop := ∃ t, runSteps k s = .next t

end Sys2Proof.Machine
end

