-- ==== Sys2Proof/Certificates/Slice0/Obligations.lean ====
section
/-! DEFINITION. The statements for the provers, file by file of spec/. A statement that gives a whole next state as an equation
also says its frame: every field it does not name is unchanged, all of memory among them. -/

open Sys2Proof Sys2Proof.Machine

/-! ## 10_state.md -/

/-- 10_state.md R13: a write stores the value masked to the register's declared width and touches nothing else. -/
def Obligations.RegisterWriteIsMaskedToWidth : Prop :=
  ∀ (s : State) (r : Reg) (v : Nat),
    (s.setReg r v).getReg r = v % 2 ^ r.width ∧
    (∀ q, q ≠ r → (s.setReg r v).getReg q = s.getReg q) ∧
    (s.setReg r v).sig = s.sig ∧ (s.setReg r v).phase = s.phase ∧ (s.setReg r v).mem = s.mem

/-- 10_state.md R21, the "write" entries: a T-state leaves every register that its row of the table does not write. -/
def Obligations.StepWritesOnlyTheTabledRegisters : Prop :=
  ∀ s t : State, s.phase ≠ .Halted → step s = .next t →
    ∀ r, r ∉ tabledWrites t.phase (decodeByte t.ir) → t.getReg r = s.getReg r

/-- 10_state.md R25: the matrix asserts exactly the named signals, "never more, never fewer". -/
def Obligations.MatrixAssertsExactlyTheNamedSignals : Prop :=
  ∀ (names : List Signal) (x : Signal), ((Signals.asserting names).get x = true ↔ x ∈ names)

/-- 10_state.md R26: no instruction reads the matrix. Whatever it holds, the T-state does the same. -/
def Obligations.MatrixIsNeverRead : Prop :=
  ∀ (s : State) (g : Signals), s.phase ≠ .Halted → step { s with sig := g } = step s

/-- 10_state.md R27: after a T-state the matrix, as a word, is one of the nine legal values. The bit positions are the spec's
own choice (92_eei_decisions.md D3; entry 8). -/
def Obligations.SignalWordIsOneOfTheNine : Prop :=
  ∀ s t : State, s.phase ≠ .Halted → step s = .next t →
    t.sig.toWord ∈ [0x000#12, 0x600#12, 0x180#12, 0x240#12, 0x020#12, 0x002#12, 0x034#12, 0x03C#12, 0x011#12]

/-- 10_state.md R29 (and 60_exceptions.md R105): only a decoded HLT, at T4, enters Halted; no step changes any state then; and only
reset leaves it. -/
def Obligations.HaltedIsEnteredByHltAndLeftByResetAlone : Prop :=
  (∀ s t : State, s.phase ≠ .Halted → step s = .next t → t.phase = .Halted →
    s.phase = .T3 ∧ (decodeByte s.ir).isHlt = true) ∧
  (∀ s : State, s.phase = .Halted → step s = .next s) ∧
  (∀ (op : DriverOp) (s t : State), s.phase = .Halted → op ≠ .reset → drive op s = .next t → t = s)

/-- 10_state.md R31: the engine never writes memory: through any number of T-states every cell reads as before. -/
def Obligations.EngineNeverWritesMemory : Prop :=
  ∀ (k : Nat) (s t : State), runSteps k s = .next t → ∀ a, t.mem.read a = s.mem.read a

/-- 10_state.md R33, R20: OUT is seen by no instruction. Changing it changes nothing of the next state but OUT itself. -/
def Obligations.OutRegisterIsNeverRead : Prop :=
  ∀ (s t : State) (v : Byte), step s = .next t →
    ∃ u, step { s with out := v } = .next u ∧ { u with out := t.out } = t

/-- 10_state.md R34: the registers, the matrix and the phase after construction and after reset, and the memory after each. The
image of construction is any 16 bytes. -/
def Obligations.ValuesAfterConstructionAndAfterReset : Prop :=
  (∀ img : Image,
    (∀ r, (State.construct img).getReg r = 0) ∧ (∀ x, (State.construct img).sig.get x = false) ∧
    (State.construct img).phase = .T0 ∧ (∀ a : Addr, (State.construct img).mem.read a = img[a.toFin]) ∧
    ∃ r, fetchCycle (State.construct img) = .next r ∧ r.state.ir = img[0]) ∧
  (∀ s : State,
    (∀ r, s.resetEngine.getReg r = 0) ∧ (∀ x, s.resetEngine.sig.get x = false) ∧
    s.resetEngine.phase = .T0 ∧ s.resetEngine.mem = s.mem ∧
    ∃ r, fetchCycle s.resetEngine = .next r ∧ r.state.ir = s.mem.read 0)

/-- The model's State.reset is the construction with the all-zero image. That its cells are zero is the model's choice
(DESIGN CHOICE, entry 3); its registers, matrix and phase are those of 10_state.md R34. -/
def Obligations.HostResetIsConstructionWithTheZeroImage : Prop :=
  State.reset = State.construct (Vector.replicate 16 0)

/-! ## 20_memory.md -/

/-- 20_memory.md R37: a T-state other than T2, and T5 of LDA, ADD and SUB, does not read memory: with any other memory it does
the same to everything but the memory. The reads themselves are in the statements of T2 and of the instructions. -/
def Obligations.MemoryIsReadOnlyAtTheTabledTStates : Prop :=
  ∀ (s t : State) (m : Memory), s.phase ≠ .T1 → ¬(s.phase = .T4 ∧ (decodeByte s.ir).usesMemory = true) →
    step s = .next t → step { s with mem := m } = .next { t with mem := m }

/-- 20_memory.md R38: the load writes all 16 cells at once and nothing else; reset loads nothing. That it is admitted at T0 alone
is the spec's own decision (D8, entry 7). -/
def Obligations.LoadWritesEveryCellAndOnlyAtT0 : Prop :=
  (∀ (img : Image) (s : State), s.phase = .T0 →
    load img s = .next { s with mem := Memory.ofImage img } ∧ ∀ a : Addr, (Memory.ofImage img).read a = img[a.toFin]) ∧
  (∀ (img : Image) (s : State), s.phase ≠ .T0 → load img s = .refused .loadOffIdle) ∧
  (∀ s : State, s.resetEngine.mem = s.mem)

/-- 10_state.md R31: memory is written only by the load; every other move of the driver leaves every cell as it was. R31 says
"before execution begins": that this means phase T0 is the spec's own decision (20_memory.md section 1; D8, entry 7). -/
def Obligations.OnlyTheLoadChangesMemory : Prop :=
  (∀ (op : DriverOp) (s t : State), (∀ img, op ≠ .load img) → drive op s = .next t → ∀ a, t.mem.read a = s.mem.read a) ∧
  (∀ (img : Image) (s t : State), drive (.load img) s = .next t → s.phase = .T0)

/-- 20_memory.md R44, R45: the value of a cell at any T-state of a run is the value the loader put there, at construction or by
a later load. That a later load is one at T0 after a reset is the spec's own decision (D8, entry 7). -/
def Obligations.EveryCellKeepsTheLoadedValue : Prop :=
  ∀ (img : Image) (k : Nat) (s t : State), s = State.construct img ∨ (∃ r, load img r = .next s) → runSteps k s = .next t →
    ∀ a : Addr, t.mem.read a = img[a.toFin]

/-! ## 30_encoding.md -/

/-- 30_encoding.md R49, R51: every instruction is one byte, and decoding what encoding gives returns the instruction, operand
and all, and leaves the bytes after it; every byte is the encoding of what it decodes to. -/
def Obligations.DecodingAndEncodingAgree : Prop :=
  (∀ (i : Instr) (rest : List Byte), decode (encode i ++ rest) = .ok (i, rest)) ∧
  (∀ b : Byte, encodeByte (decodeByte b) = b)

/-- 30_encoding.md R52: the opcode map, row by row, for every operand nibble. -/
def Obligations.OpcodeMapIsTheTabledOne : Prop :=
  ∀ x : Nibble,
    decodeByte (0x0#4 ++ x) = .unrec0 x ∧ decodeByte (0x1#4 ++ x) = .lda x ∧ decodeByte (0x2#4 ++ x) = .add x ∧
    decodeByte (0x3#4 ++ x) = .sub x ∧ decodeByte (0x4#4 ++ x) = .unrec4 x ∧ decodeByte (0x5#4 ++ x) = .unrec5 x ∧
    decodeByte (0x6#4 ++ x) = .unrec6 x ∧ decodeByte (0x7#4 ++ x) = .unrec7 x ∧ decodeByte (0x8#4 ++ x) = .unrec8 x ∧
    decodeByte (0x9#4 ++ x) = .unrec9 x ∧ decodeByte (0xA#4 ++ x) = .unrecA x ∧ decodeByte (0xB#4 ++ x) = .unrecB x ∧
    decodeByte (0xC#4 ++ x) = .unrecC x ∧ decodeByte (0xD#4 ++ x) = .unrecD x ∧ decodeByte (0xE#4 ++ x) = .out x ∧
    decodeByte (0xF#4 ++ x) = .hlt x

/-- 30_encoding.md R52, R53: bytes written out bit by bit, and what they decode to. -/
def Obligations.WrittenOutBytesDecode : Prop :=
  decodeByte 0b00011001 = .lda 9 ∧ decodeByte 0b00101010 = .add 10 ∧ decodeByte 0b00111011 = .sub 11 ∧
  decodeByte 0b11100000 = .out 0 ∧ decodeByte 0b11100111 = .out 7 ∧ decodeByte 0b11110000 = .hlt 0 ∧
  decodeByte 0b11110011 = .hlt 3 ∧ decodeByte 0b01001010 = .unrec4 10 ∧ decodeByte 0b00000000 = .unrec0 0

/-- 30_encoding.md R53: dispatch reads the opcode field alone, so the operand nibble of OUT, HLT and the unrecognized opcodes
has no effect. -/
def Obligations.IgnoredOperandHasNoEffect : Prop :=
  ∀ (x y : Nibble) (s : State),
    exec (.out x) s = exec (.out y) s ∧ exec (.hlt x) s = exec (.hlt y) s ∧
    ∀ z ∈ [Instr.unrec0 x, .unrec4 x, .unrec5 x, .unrec6 x, .unrec7 x, .unrec8 x, .unrec9 x, .unrecA x, .unrecB x,
      .unrecC x, .unrecD x], exec z s = exec (.unrec4 y) s

/-- 30_encoding.md R56: a well-formed program text is an image in which every line's cell holds the byte of its item and every
other cell holds 0x00; a malformed one has no image. The notation is the spec's own choice (92_eei_decisions.md D14; entry 23);
that two lines for one cell are malformed is the model's (DESIGN CHOICE, entry 18). -/
def Obligations.ProgramTextBecomesItsImage : Prop :=
  (∀ p : ProgramText, ProgramText.wellFormed p = false → assemble p = none) ∧
  (∀ p : ProgramText, ProgramText.wellFormed p = true → ∃ img : Image, assemble p = some img ∧
    (∀ (n : Fin 16) (it : Item), (n.val, it) ∈ p → it.encode = some img[n]) ∧
    (∀ n : Fin 16, (∀ it, (n.val, it) ∉ p) → img[n] = 0x00))

/-- 30_encoding.md R56: the byte of each line of the notation, and what the engine decodes the bytes of `LDA a`, `ADD a` and
`SUB a` to. The notation is the spec's own choice (92_eei_decisions.md D14; entry 23); the decoding is R52's. -/
def Obligations.NotationNamesTheInstructions : Prop :=
  (∀ a : Nat, a < 16 →
    (Item.lda a).encode = some (BitVec.ofNat 8 (0x10 + a)) ∧ (Item.add a).encode = some (BitVec.ofNat 8 (0x20 + a)) ∧
    (Item.sub a).encode = some (BitVec.ofNat 8 (0x30 + a)) ∧
    decodeByte (BitVec.ofNat 8 (0x10 + a)) = .lda (BitVec.ofNat 4 a) ∧
    decodeByte (BitVec.ofNat 8 (0x20 + a)) = .add (BitVec.ofNat 4 a) ∧
    decodeByte (BitVec.ofNat 8 (0x30 + a)) = .sub (BitVec.ofNat 4 a)) ∧
  Item.out.encode = some 0xE0 ∧ Item.hlt.encode = some 0xF0 ∧
  (∀ v : Nat, v < 256 → (Item.data v).encode = some (BitVec.ofNat 8 v) ∧ (Item.byte v).encode = some (BitVec.ofNat 8 v))

/-! ## 40_sequencer.md -/

/-- 40_sequencer.md R59: the transitions of the phase, and that the phase is never T4, T5 or T6 while IR holds HLT. -/
def Obligations.PhaseMovesAsTabled : Prop :=
  ∀ s t : State, step s = .next t →
    t.phase = phaseAfter s.phase (decodeByte s.ir) ∧ (t.Executing → (decodeByte t.ir).isHlt = false)

/-- 40_sequencer.md R62: after every T-state the asserted set is exactly the entry of the table. -/
def Obligations.AssertedSetIsTheTabledOne : Prop :=
  ∀ s t : State, s.phase ≠ .Halted → step s = .next t → t.sig = signalTable t.phase (decodeByte t.ir)

/-- 40_sequencer.md R63: Cp is never asserted, though T2 increments PC, and Ce is asserted at T2 alone. -/
def Obligations.CpIsNeverAssertedAndCeOnlyAtT2 : Prop :=
  ∀ s t : State, s.phase ≠ .Halted → step s = .next t →
    t.sig.get .Cp = false ∧ (t.sig.get .Ce = true ↔ t.phase = .T2) ∧ (t.phase = .T2 → t.pc = s.pc + 1)

/-- 40_sequencer.md R65, R66, R67: the three fetch T-states, each as the whole next state. -/
def Obligations.FetchTStates : Prop :=
  ∀ s : State,
    (s.phase = .T0 ∨ s.phase = .T6 →
      step s = .next { s with mar := s.pc, sig := .asserting [.Ep, .Lm], phase := .T1 }) ∧
    (s.phase = .T1 →
      step s = .next { s with ir := s.mem.read s.mar, pc := s.pc + 1, sig := .asserting [.Ce, .Li], phase := .T2 }) ∧
    (s.phase = .T2 → step s = .next { s with sig := .none, phase := .T3 })

/-- 40_sequencer.md R68, R74: `fetch_cycle` is three T-states, from T0 or T6, from any PC and any memory, and does not end
terminal; when Halted it changes nothing and reports terminal, and at any other phase there is no such move (the spec's own decisions, D5, D6; entries 6 and 20). -/
def Obligations.FetchCycleIsThreeTStates : Prop :=
  ∀ s : State,
    (s.AtBoundary →
      fetchCycle s = .next
        { state := { s with pc := s.pc + 1, mar := s.pc, ir := s.mem.read s.pc, sig := .none, phase := .T3 }
          terminal := false } ∧
      runSteps 3 s = drive .fetchCycle s) ∧
    (s.phase = .Halted → fetchCycle s = .next { state := s, terminal := true }) ∧
    (¬s.AtBoundary → s.phase ≠ .Halted → fetchCycle s = .refused .fetchCycleOffBoundary)

/-- 40_sequencer.md R69, R72: a step at T3, T4 or T5 is `exec` of the instruction decoded from IR; and from a cycle boundary, when
the byte at PC decodes to `i`, the fetch cycle is followed by steps that are `exec i`, to the end of the cycle. -/
def Obligations.StepRunsTheDecodedInstruction : Prop :=
  (∀ s : State, s.phase = .T3 ∨ s.phase = .T4 ∨ s.phase = .T5 → step s = exec (decodeByte s.ir) s) ∧
  (∀ (s : State) (i : Instr), s.AtBoundary → decode [s.mem.read s.pc] = .ok (i, []) →
    ∃ f, runSteps 3 s = .next f ∧ f.phase = .T3 ∧ step f = exec i f ∧
      ∀ t, exec i f = .next t → t.phase ≠ .Halted →
        step t = exec i t ∧ ∀ u, exec i t = .next u → step u = exec i u ∧ ∀ v, exec i u = .next v → v.phase = .T6)

/-- On a canonical memory, the step after `withFetchWord` runs the instruction of the table word (the model's convention,
entry 2), which stands in the cell at PC; every other cell reads as before. -/
def Obligations.FetchWordIsWhatTheNextStepRuns : Prop :=
  ∀ (s : State) (nbits w : Nat) (i : Instr), s.mem.wf = true → decodeTableWord nbits w = some i →
    step (s.withFetchWord nbits w) = exec i (s.withFetchWord nbits w) ∧
    decodeByte ((s.withFetchWord nbits w).mem.read s.pc) = i ∧
    ∀ a, a ≠ s.pc → (s.withFetchWord nbits w).mem.read a = s.mem.read a

/-- 40_sequencer.md R71: PC changes only at T2, by (PC + 1) mod 16. -/
def Obligations.PcChangesOnlyAtT2 : Prop :=
  ∀ s t : State, step s = .next t →
    (t.phase = .T2 → t.getReg .pc = (s.getReg .pc + 1) % 16) ∧ (t.phase ≠ .T2 → t.pc = s.pc)

/-- 40_sequencer.md R73 (the spec's own decision, D5; entry 20): a step of a Halted engine changes no state and reports terminal; so do any number of steps, and so do
fetch_cycle, execute_cycle and run_to_halt (R74, R75, R76). -/
def Obligations.HaltedEngineIsFrozen : Prop :=
  ∀ s : State, s.phase = .Halted →
    driverStep s = .next { state := s, terminal := true } ∧ (∀ k, runSteps k s = .next s) ∧
    fetchCycle s = .next { state := s, terminal := true } ∧ executeCycle s = .next { state := s, terminal := true } ∧
    ∀ n, runToHalt n s = .next { state := s, halted := true, cycles := 0 }

/-- 40_sequencer.md R75 (off T3 the spec's own decision, D6; entry 6): `execute_cycle` from T3 is one step for HLT and three for every other opcode, and returns terminal
exactly for HLT. -/
def Obligations.ExecuteCycleEndsAtT6OrHalted : Prop :=
  ∀ s : State,
    (s.phase = .T3 → (decodeByte s.ir).isHlt = true →
      ∃ t, executeCycle s = .next { state := t, terminal := true } ∧ runSteps 1 s = .next t ∧ t.phase = .Halted) ∧
    (s.phase = .T3 → (decodeByte s.ir).isHlt = false →
      ∃ t, executeCycle s = .next { state := t, terminal := false } ∧ runSteps 3 s = .next t ∧ t.phase = .T6) ∧
    (s.phase = .Halted → executeCycle s = .next { state := s, terminal := true }) ∧
    (s.phase ≠ .T3 → s.phase ≠ .Halted → executeCycle s = .refused .executeCycleOffT3)

/-- 40_sequencer.md R76; 70_reset_and_hazards.md R112: from a cycle boundary `run_to_halt` always returns. A run that halted in
`c` cycles is 6 (c - 1) + 4 T-states and `c` is at most the cap; a run that was capped is 6 T-states a cycle, and it
performed exactly the cap. That the count is returned, and what a cap of 0 does, are the spec's own decision (D7, entry 16). -/
def Obligations.RunToHaltIsItsTStates : Prop :=
  ∀ (n : Nat) (s : State), s.AtBoundary → ∃ r, runToHalt n s = .next r ∧
    (r.halted = true → 1 ≤ r.cycles ∧ r.cycles ≤ n ∧ r.state.phase = .Halted ∧
      runSteps (6 * (r.cycles - 1) + 4) s = .next r.state) ∧
    (r.halted = false → r.cycles = n ∧ r.state.AtBoundary ∧ (0 < n → r.state.phase = .T6) ∧
      runSteps (6 * n) s = .next r.state)

/-- 40_sequencer.md R76 (the spec's own decisions, D6, D7; entries 6 and 16): the cases of `run_to_halt` that its loop does not reach: a cap of 0, and the phases of no such move. -/
def Obligations.RunToHaltAtItsEdges : Prop :=
  ∀ s : State,
    (s.AtBoundary → runToHalt 0 s = .next { state := s, halted := false, cycles := 0 }) ∧
    (¬s.AtBoundary → s.phase ≠ .Halted → ∀ n, runToHalt n s = .refused .runToHaltOffBoundary)

/-- 40_sequencer.md R71: instructions execute in address order until an HLT. The first HLT in address order from PC, `k` cells
on, halts the run in cycle `k + 1` (R76). That the count is returned, and that an HLT in the last cycle of the cap returns
halted, are the spec's own decision (D7, entry 16). -/
def Obligations.FirstHltInAddressOrderHalts : Prop :=
  ∀ (s : State) (n k : Nat), s.AtBoundary → k < n →
    (∀ j, j < k → (decodeByte (s.mem.read (s.pc + BitVec.ofNat 4 j))).isHlt = false) →
    (decodeByte (s.mem.read (s.pc + BitVec.ofNat 4 k))).isHlt = true →
    ∃ t, runToHalt n s = .next { state := t, halted := true, cycles := k + 1 } ∧
      t.mar = s.pc + BitVec.ofNat 4 k ∧ t.pc = t.mar + 1

/-- 95_test_vectors.md X8; 40_sequencer.md R76, R79: a memory with no HLT anywhere never halts. Every cap is reached, whatever it
is, with PC that many cells on. That the count is returned, and what a cap of 0 does, are the spec's own decision (D7,
entry 16). -/
def Obligations.MemoryWithoutHltIsCapped : Prop :=
  ∀ (s : State) (n : Nat), s.AtBoundary → (∀ a, (decodeByte (s.mem.read a)).isHlt = false) →
    ∃ t, runToHalt n s = .next { state := t, halted := false, cycles := n } ∧ t.pc = s.pc + BitVec.ofNat 4 n ∧
      (0 < n → t.phase = .T6)

/-- 40_sequencer.md R81: what an observation shows, and that it offers no view of memory. -/
def Obligations.ObservationShowsAllButMemory : Prop :=
  (∀ s : State, s.observe.phase = s.phase ∧
    s.observe.regs = { pc := s.pc, mar := s.mar, acc := s.acc, ir := s.ir, tmp := s.tmp, out := s.out } ∧
    s.observe.sig = s.sig ∧ s.observe.view = decodedView s.ir) ∧
  (∀ (s : State) (m : Memory), { s with mem := m }.observe = s.observe)

/-- 30_encoding.md R58: the decoded view shows the mnemonic of R52 and `IR[3:0]`, and for an unrecognized opcode the opcode
nibble. The display text of an unrecognized opcode is the spec's own choice (D10). -/
def Obligations.DecodedViewNamesMnemonicAndOperand : Prop :=
  ∀ op x : Nibble,
    decodedView (op ++ x) =
      if op = 0x1 then .known .LDA x else if op = 0x2 then .known .ADD x else if op = 0x3 then .known .SUB x
      else if op = 0xE then .known .OUT x else if op = 0xF then .known .HLT x else .unknown op x

/-- 40_sequencer.md R83: after a T-state the bus value is the value the T-state moved, which is what its destination register
now holds; none where the signal set is `{}`. All but T6 of ADD and SUB is the spec's own decision (D9, entry 11). -/
def Obligations.BusValueIsTheValueMoved : Prop :=
  ∀ s t : State, s.phase ≠ .Halted → step s = .next t →
    (t.sig = .none → t.busValue = none) ∧
    (t.phase = .T1 → t.busValue = some (t.mar.setWidth 8)) ∧
    (t.phase = .T2 → t.busValue = some t.ir) ∧
    (t.phase = .T4 → (decodeByte t.ir).usesMemory = true → t.busValue = some (t.mar.setWidth 8)) ∧
    (t.phase = .T4 → opcodeField t.ir = 0xE → t.busValue = some t.out) ∧
    (t.phase = .T5 → opcodeField t.ir = 0x1 → t.busValue = some t.acc) ∧
    (t.phase = .T5 → opcodeField t.ir = 0x2 ∨ opcodeField t.ir = 0x3 → t.busValue = some t.tmp) ∧
    (t.phase = .T6 → opcodeField t.ir = 0x2 → t.busValue = some (alu s.acc s.tmp false) ∧ t.acc = alu s.acc s.tmp false) ∧
    (t.phase = .T6 → opcodeField t.ir = 0x3 → t.busValue = some (alu s.acc s.tmp true) ∧ t.acc = alu s.acc s.tmp true)

/-! ## 41 to 44: the instructions -/

/-- 41_load.md R84: the byte of LDA, and its three T-states, each as the whole next state. -/
def Obligations.LdaTStates : Prop :=
  ∀ (a : Nibble) (s : State),
    decodeByte (0b0001#4 ++ a) = .lda a ∧
    (s.phase = .T3 → exec (.lda a) s = .next { s with mar := a, sig := .asserting [.Ei, .Lm], phase := .T4 }) ∧
    (s.phase = .T4 → exec (.lda a) s = .next { s with acc := s.mem.read s.mar, sig := .asserting [.La], phase := .T5 }) ∧
    (s.phase = .T5 → exec (.lda a) s = .next { s with sig := .none, phase := .T6 })

/-- 42_arith.md R85: the ALU, on the unsigned integers and then mod 256. -/
def Obligations.AluIsModulo256 : Prop :=
  ∀ acc tmp : Byte,
    ((alu acc tmp false).toNat : Int) = ((acc.toNat : Int) + (tmp.toNat : Int)) % 256 ∧
    ((alu acc tmp true).toNat : Int) = ((acc.toNat : Int) - (tmp.toNat : Int)) % 256

/-- 42_arith.md R88: the byte of ADD, and its three T-states, each as the whole next state. -/
def Obligations.AddTStates : Prop :=
  ∀ (a : Nibble) (s : State),
    decodeByte (0b0010#4 ++ a) = .add a ∧
    (s.phase = .T3 → exec (.add a) s = .next { s with mar := a, sig := .asserting [.Ei, .Lm], phase := .T4 }) ∧
    (s.phase = .T4 → exec (.add a) s = .next { s with tmp := s.mem.read s.mar, sig := .asserting [.Lb], phase := .T5 }) ∧
    (s.phase = .T5 →
      exec (.add a) s = .next { s with acc := s.acc + s.tmp, sig := .asserting [.Ea, .Eu, .La], phase := .T6 })

/-- 42_arith.md R89: the byte of SUB, and its three T-states, each as the whole next state. -/
def Obligations.SubTStates : Prop :=
  ∀ (a : Nibble) (s : State),
    decodeByte (0b0011#4 ++ a) = .sub a ∧
    (s.phase = .T3 → exec (.sub a) s = .next { s with mar := a, sig := .asserting [.Ei, .Lm], phase := .T4 }) ∧
    (s.phase = .T4 → exec (.sub a) s = .next { s with tmp := s.mem.read s.mar, sig := .asserting [.Lb], phase := .T5 }) ∧
    (s.phase = .T5 →
      exec (.sub a) s = .next { s with acc := s.acc - s.tmp, sig := .asserting [.Ea, .Eu, .La, .Su], phase := .T6 })

/-- 43_output.md R90: the byte of OUT, and its three T-states, each as the whole next state. -/
def Obligations.OutTStates : Prop :=
  ∀ (x : Nibble) (s : State),
    decodeByte (0b1110#4 ++ x) = .out x ∧
    (s.phase = .T3 → exec (.out x) s = .next { s with out := s.acc, sig := .asserting [.Ea, .Lo], phase := .T4 }) ∧
    (s.phase = .T4 → exec (.out x) s = .next { s with sig := .none, phase := .T5 }) ∧
    (s.phase = .T5 → exec (.out x) s = .next { s with sig := .none, phase := .T6 })

/-- 44_control.md R91: the byte of HLT, its one T-state as the whole next state, and the terminal result. -/
def Obligations.HltTState : Prop :=
  ∀ (x : Nibble) (s : State),
    decodeByte (0b1111#4 ++ x) = .hlt x ∧
    (s.phase = .T3 → exec (.hlt x) s = .next { s with sig := .none, phase := .Halted }) ∧
    (s.phase = .T3 → decodeByte s.ir = .hlt x →
      driverStep s = .next { state := { s with sig := .none, phase := .Halted }, terminal := true })

/-- 44_control.md R92: the bytes of the unrecognized opcodes, and that each of the eleven rows is a no-op for all of T4 to T6, each
T-state as the whole next state. -/
def Obligations.UnrecognizedTStates : Prop :=
  (∀ op x : Nibble, op = 0x0 ∨ (0x4 ≤ op ∧ op ≤ 0xD) →
    decodeByte (op ++ x) ∈ [Instr.unrec0 x, .unrec4 x, .unrec5 x, .unrec6 x, .unrec7 x, .unrec8 x, .unrec9 x, .unrecA x,
      .unrecB x, .unrecC x, .unrecD x]) ∧
  ∀ (x : Nibble) (s : State) (i : Instr),
    i ∈ [Instr.unrec0 x, .unrec4 x, .unrec5 x, .unrec6 x, .unrec7 x, .unrec8 x, .unrec9 x, .unrecA x, .unrecB x,
      .unrecC x, .unrecD x] →
    (s.phase = .T3 → exec i s = .next { s with sig := .none, phase := .T4 }) ∧
    (s.phase = .T4 → exec i s = .next { s with sig := .none, phase := .T5 }) ∧
    (s.phase = .T5 → exec i s = .next { s with sig := .none, phase := .T6 })

/-- The frames of the execute T-states: what each instruction leaves unchanged when `exec` answers a next state. No form stores
to memory, so every cell reads as before (20_memory.md R37; the "Registers written" items of R84, R88 to R92). -/
def Obligations.ExecuteFrames : Prop :=
  ∀ (x : Nibble) (s t : State),
    (exec (.lda x) s = .next t →
      t.pc = s.pc ∧ t.ir = s.ir ∧ t.tmp = s.tmp ∧ t.out = s.out ∧ ∀ a, t.mem.read a = s.mem.read a) ∧
    (exec (.add x) s = .next t ∨ exec (.sub x) s = .next t →
      t.pc = s.pc ∧ t.ir = s.ir ∧ t.out = s.out ∧ ∀ a, t.mem.read a = s.mem.read a) ∧
    (exec (.out x) s = .next t →
      t.pc = s.pc ∧ t.mar = s.mar ∧ t.acc = s.acc ∧ t.ir = s.ir ∧ t.tmp = s.tmp ∧ ∀ a, t.mem.read a = s.mem.read a) ∧
    (∀ i ∈ [Instr.hlt x, .unrec0 x, .unrec4 x, .unrec5 x, .unrec6 x, .unrec7 x, .unrec8 x, .unrec9 x, .unrecA x, .unrecB x,
        .unrecC x, .unrecD x],
      exec i s = .next t → (∀ r, t.getReg r = s.getReg r) ∧ ∀ a, t.mem.read a = s.mem.read a)

/-- Where a meaning stops by name, and that it changes nothing on a Halted engine: no execute T-state is next at T0, T1, T2 and
T6, and HLT has no T5 and no T6 (40_sequencer.md R59, R72; the model's convention, entries 4 and 5). -/
def Obligations.ExecStopsByNameOffItsPhases : Prop :=
  (∀ (i : Instr) (s : State), s.phase = .T0 ∨ s.phase = .T1 ∨ s.phase = .T2 ∨ s.phase = .T6 →
    exec i s = .refused .noExecuteStateNext) ∧
  (∀ (x : Nibble) (s : State), s.phase = .T4 ∨ s.phase = .T5 → exec (.hlt x) s = .refused .hltHasNoLaterState) ∧
  (∀ (i : Instr) (s : State), s.phase = .Halted → exec i s = .next s)

/-- 41_load.md R84, from a cycle boundary: one whole cycle of LDA. The loaded cell may be the instruction's own. -/
def Obligations.LdaCycleEndState : Prop :=
  ∀ (s : State) (a : Nibble), s.AtBoundary → decodeByte (s.mem.read s.pc) = .lda a →
    cycle s = .next
      { state := { s with pc := s.pc + 1, mar := a, acc := s.mem.read a, ir := s.mem.read s.pc, sig := .none, phase := .T6 }
        terminal := false }

/-- 95_test_vectors.md X2; 42_arith.md R88, R89, from a cycle boundary: one whole cycle of ADD and of SUB. -/
def Obligations.AddAndSubCycleEndState : Prop :=
  ∀ (s : State) (a : Nibble), s.AtBoundary →
    (decodeByte (s.mem.read s.pc) = .add a →
      cycle s = .next
        { state := { s with
            pc := s.pc + 1, mar := a, acc := s.acc + s.mem.read a, ir := s.mem.read s.pc, tmp := s.mem.read a,
            sig := .asserting [.Ea, .Eu, .La], phase := .T6 }
          terminal := false }) ∧
    (decodeByte (s.mem.read s.pc) = .sub a →
      cycle s = .next
        { state := { s with
            pc := s.pc + 1, mar := a, acc := s.acc - s.mem.read a, ir := s.mem.read s.pc, tmp := s.mem.read a,
            sig := .asserting [.Ea, .Eu, .La, .Su], phase := .T6 }
          terminal := false })

/-- 95_test_vectors.md X3, X4; 43_output.md R90; 44_control.md R91, R92, from a cycle boundary: one whole cycle of OUT, of HLT and of
an unrecognized opcode. MAR keeps the instruction's own address. -/
def Obligations.OutHltAndNoOpCycleEndState : Prop :=
  ∀ (s : State) (op x : Nibble), s.AtBoundary → s.mem.read s.pc = op ++ x →
    (op = 0xE → cycle s = .next
      { state := { s with pc := s.pc + 1, mar := s.pc, ir := 0xE#4 ++ x, out := s.acc, sig := .none, phase := .T6 }
        terminal := false }) ∧
    (op = 0xF → cycle s = .next
      { state := { s with pc := s.pc + 1, mar := s.pc, ir := 0xF#4 ++ x, sig := .none, phase := .Halted }
        terminal := true }) ∧
    (op = 0x0 ∨ (0x4 ≤ op ∧ op ≤ 0xD) → cycle s = .next
      { state := { s with pc := s.pc + 1, mar := s.pc, ir := op ++ x, sig := .none, phase := .T6 }
        terminal := false })

/-- 70_reset_and_hazards.md R112: from a cycle boundary one whole cycle always ends, and is as many T-states as tabled, 4 for HLT and 6
for every other opcode. -/
def Obligations.CycleTakesTheTabledTStates : Prop :=
  ∀ s : State, s.AtBoundary → ∃ r, cycle s = .next r ∧
    runSteps (cycleTStates (decodeByte (s.mem.read s.pc))) s = .next r.state ∧
    r.terminal = (decodeByte (s.mem.read s.pc)).isHlt

/-! ## 60_exceptions.md and 70_reset_and_hazards.md -/

/-- 60_exceptions.md R93: the engine never faults, which the model says by a type of faults without a constructor (entry 21).
40_sequencer.md R79, an inference of the spec's own: from a coherent state every step answers a next state, which is another phase
unless the engine is Halted. The premise rules out the states in which HLT at T4 or T5 is refused (the model's choice,
entry 5). -/
def Obligations.StepAlwaysAnswersANextState : Prop :=
  (∀ (s : State) (r : Fault), step s ≠ .fault r) ∧
  (∀ s : State, s.Coherent → ∃ t, step s = .next t ∧ (s.phase ≠ .Halted → t.phase ≠ s.phase))

/-- 70_reset_and_hazards.md R107: reset, at every phase (D18, entry 17), and the load that may follow it (D8, entry 7). -/
def Obligations.ResetReinitializesAllButMemory : Prop :=
  ∀ s : State, drive .reset s = .next
    { pc := 0, mar := 0, acc := 0, ir := 0x00, tmp := 0, out := 0, sig := .asserting [], phase := .T0, mem := s.mem } ∧
    ∀ img, load img s.resetEngine = .next { s.resetEngine with mem := Memory.ofImage img }

/-- 70_reset_and_hazards.md R108: after any run from construction, reset gives the construction's state again, so a second run
gives the result of the first. -/
def Obligations.ResetAndRunAgainGivesTheSame : Prop :=
  ∀ (img : Image) (k : Nat) (t : State), runSteps k (State.construct img) = .next t →
    t.resetEngine = State.construct img ∧ ∀ n, runToHalt n t.resetEngine = runToHalt n (State.construct img)

/-! ## The invariant -/

/-- Construction with any image, and the host's reset, satisfy the invariant. -/
def Obligations.ConstructionIsCoherent : Prop :=
  State.reset.Coherent ∧ ∀ img : Image, (State.construct img).Coherent

/-- Every step keeps the invariant: the matrix is the tabled set, HLT is never under execution past T4, IR is the fetched byte,
MAR, ACC, TMP and OUT hold what the T-states put there, and memory is canonical. -/
def Obligations.EveryStepKeepsCoherence : Prop :=
  ∀ s t : State, s.Coherent → step s = .next t → t.Coherent

/-- Every move of the driver keeps the invariant, the composite operations, reset and the load among them. -/
def Obligations.EveryDriverMoveKeepsCoherence : Prop :=
  ∀ (op : DriverOp) (s t : State), s.Coherent → drive op s = .next t → t.Coherent

/-- 60_exceptions.md R93, by the type of faults (entry 21); 40_sequencer.md R79, an inference of the spec's own: from a coherent
state a run of any length is safe, and ends in a coherent state. The premise rules out the states in which HLT at T4 or T5 is
refused (the model's choice, entry 5). -/
def Obligations.CoherentRunsAreSafe : Prop :=
  ∀ (k : Nat) (s : State), s.Coherent → SafeRun k s ∧ ∀ t, runSteps k s = .next t → t.Coherent
end

