-- ==== Sys2Proof/Laws/Decode.lean ====
section
/-! SUPPORT. What the decoder says of the two fields of a byte (spec/30_encoding.md R49, R50, R52). -/

namespace Sys2Proof

/-- A byte is its two nibbles. -/
theorem append_fields (b : Byte) : opcodeField b ++ operandField b = b := by
  revert b; decide

@[simp] theorem opcodeField_append (op x : Nibble) : opcodeField (op ++ x) = op := by
  revert op x; decide

@[simp] theorem operandField_append (op x : Nibble) : operandField (op ++ x) = x := by
  revert op x; decide

/-- Encoding is the two nibbles side by side. -/
theorem encodeByte_eq_append (i : Instr) : encodeByte i = i.opcode ++ i.operand := by
  have h : ∀ op x : Nibble, (op.setWidth 8 <<< 4) ||| x.setWidth 8 = op ++ x := by decide
  exact h _ _

/-- The decoded instruction's opcode is the byte's high nibble. -/
@[simp] theorem decodeByte_opcode (b : Byte) : (decodeByte b).opcode = opcodeField b := by
  revert b; decide

/-- The decoded instruction's operand is the byte's low nibble. -/
@[simp] theorem decodeByte_operand (b : Byte) : (decodeByte b).operand = operandField b := by
  revert b; decide

/-- The row of an instruction is its opcode and its operand. -/
theorem Instr.ext_fields {i j : Instr} (hop : i.opcode = j.opcode) (hx : i.operand = j.operand) : i = j := by
  cases i <;> cases j <;> simp_all [Instr.opcode, Instr.operand]

/-- What a byte decodes to, said of its two fields. -/
theorem decodeByte_eq_iff (b : Byte) (i : Instr) :
    decodeByte b = i ↔ opcodeField b = i.opcode ∧ operandField b = i.operand := by
  constructor
  · rintro rfl
    simp
  · rintro ⟨hop, hx⟩
    exact Instr.ext_fields (by simp [hop]) (by simp [hx])

/-- HLT is opcode 0xF. -/
theorem decodeByte_isHlt (b : Byte) : (decodeByte b).isHlt = true ↔ opcodeField b = 0xF := by
  revert b; decide

/-- The instructions that use their operand as an address are opcodes 0x1, 0x2 and 0x3. -/
theorem decodeByte_usesMemory (b : Byte) :
    (decodeByte b).usesMemory = true ↔ opcodeField b = 0x1 ∨ opcodeField b = 0x2 ∨ opcodeField b = 0x3 := by
  revert b; decide

end Sys2Proof
end

