-- ==== Sys2Proof/Laws/State.lean ====
section
/-! SUPPORT. One lemma per field per update of the state (spec/10_state.md R12, R13), so that no later proof unfolds a record
update. -/

namespace Sys2Proof.Machine

@[simp] theorem State.setReg_pc_pc (s : State) (v : Nat) : (s.setReg .pc v).pc = BitVec.ofNat 4 v := rfl
@[simp] theorem State.setReg_pc_mar (s : State) (v : Nat) : (s.setReg .pc v).mar = s.mar := rfl
@[simp] theorem State.setReg_pc_acc (s : State) (v : Nat) : (s.setReg .pc v).acc = s.acc := rfl
@[simp] theorem State.setReg_pc_ir (s : State) (v : Nat) : (s.setReg .pc v).ir = s.ir := rfl
@[simp] theorem State.setReg_pc_tmp (s : State) (v : Nat) : (s.setReg .pc v).tmp = s.tmp := rfl
@[simp] theorem State.setReg_pc_out (s : State) (v : Nat) : (s.setReg .pc v).out = s.out := rfl

@[simp] theorem State.setReg_mar_pc (s : State) (v : Nat) : (s.setReg .mar v).pc = s.pc := rfl
@[simp] theorem State.setReg_mar_mar (s : State) (v : Nat) : (s.setReg .mar v).mar = BitVec.ofNat 4 v := rfl
@[simp] theorem State.setReg_mar_acc (s : State) (v : Nat) : (s.setReg .mar v).acc = s.acc := rfl
@[simp] theorem State.setReg_mar_ir (s : State) (v : Nat) : (s.setReg .mar v).ir = s.ir := rfl
@[simp] theorem State.setReg_mar_tmp (s : State) (v : Nat) : (s.setReg .mar v).tmp = s.tmp := rfl
@[simp] theorem State.setReg_mar_out (s : State) (v : Nat) : (s.setReg .mar v).out = s.out := rfl

@[simp] theorem State.setReg_acc_pc (s : State) (v : Nat) : (s.setReg .acc v).pc = s.pc := rfl
@[simp] theorem State.setReg_acc_mar (s : State) (v : Nat) : (s.setReg .acc v).mar = s.mar := rfl
@[simp] theorem State.setReg_acc_acc (s : State) (v : Nat) : (s.setReg .acc v).acc = BitVec.ofNat 8 v := rfl
@[simp] theorem State.setReg_acc_ir (s : State) (v : Nat) : (s.setReg .acc v).ir = s.ir := rfl
@[simp] theorem State.setReg_acc_tmp (s : State) (v : Nat) : (s.setReg .acc v).tmp = s.tmp := rfl
@[simp] theorem State.setReg_acc_out (s : State) (v : Nat) : (s.setReg .acc v).out = s.out := rfl

@[simp] theorem State.setReg_ir_pc (s : State) (v : Nat) : (s.setReg .ir v).pc = s.pc := rfl
@[simp] theorem State.setReg_ir_mar (s : State) (v : Nat) : (s.setReg .ir v).mar = s.mar := rfl
@[simp] theorem State.setReg_ir_acc (s : State) (v : Nat) : (s.setReg .ir v).acc = s.acc := rfl
@[simp] theorem State.setReg_ir_ir (s : State) (v : Nat) : (s.setReg .ir v).ir = BitVec.ofNat 8 v := rfl
@[simp] theorem State.setReg_ir_tmp (s : State) (v : Nat) : (s.setReg .ir v).tmp = s.tmp := rfl
@[simp] theorem State.setReg_ir_out (s : State) (v : Nat) : (s.setReg .ir v).out = s.out := rfl

@[simp] theorem State.setReg_tmp_pc (s : State) (v : Nat) : (s.setReg .tmp v).pc = s.pc := rfl
@[simp] theorem State.setReg_tmp_mar (s : State) (v : Nat) : (s.setReg .tmp v).mar = s.mar := rfl
@[simp] theorem State.setReg_tmp_acc (s : State) (v : Nat) : (s.setReg .tmp v).acc = s.acc := rfl
@[simp] theorem State.setReg_tmp_ir (s : State) (v : Nat) : (s.setReg .tmp v).ir = s.ir := rfl
@[simp] theorem State.setReg_tmp_tmp (s : State) (v : Nat) : (s.setReg .tmp v).tmp = BitVec.ofNat 8 v := rfl
@[simp] theorem State.setReg_tmp_out (s : State) (v : Nat) : (s.setReg .tmp v).out = s.out := rfl

@[simp] theorem State.setReg_out_pc (s : State) (v : Nat) : (s.setReg .out v).pc = s.pc := rfl
@[simp] theorem State.setReg_out_mar (s : State) (v : Nat) : (s.setReg .out v).mar = s.mar := rfl
@[simp] theorem State.setReg_out_acc (s : State) (v : Nat) : (s.setReg .out v).acc = s.acc := rfl
@[simp] theorem State.setReg_out_ir (s : State) (v : Nat) : (s.setReg .out v).ir = s.ir := rfl
@[simp] theorem State.setReg_out_tmp (s : State) (v : Nat) : (s.setReg .out v).tmp = s.tmp := rfl
@[simp] theorem State.setReg_out_out (s : State) (v : Nat) : (s.setReg .out v).out = BitVec.ofNat 8 v := rfl

@[simp] theorem State.setReg_sig (s : State) (r : Reg) (v : Nat) : (s.setReg r v).sig = s.sig := by cases r <;> rfl
@[simp] theorem State.setReg_phase (s : State) (r : Reg) (v : Nat) : (s.setReg r v).phase = s.phase := by cases r <;> rfl
@[simp] theorem State.setReg_mem (s : State) (r : Reg) (v : Nat) : (s.setReg r v).mem = s.mem := by cases r <;> rfl

@[simp] theorem State.commit_phase (s : State) (p : Phase) (g : List Signal) (ws : List (Reg × Nat)) :
    (s.commit p g ws).phase = p := rfl

@[simp] theorem State.commit_sig (s : State) (p : Phase) (g : List Signal) (ws : List (Reg × Nat)) :
    (s.commit p g ws).sig = Signals.asserting g := rfl

@[simp] theorem State.resetEngine_pc (s : State) : s.resetEngine.pc = 0 := rfl
@[simp] theorem State.resetEngine_mar (s : State) : s.resetEngine.mar = 0 := rfl
@[simp] theorem State.resetEngine_acc (s : State) : s.resetEngine.acc = 0 := rfl
@[simp] theorem State.resetEngine_ir (s : State) : s.resetEngine.ir = 0 := rfl
@[simp] theorem State.resetEngine_tmp (s : State) : s.resetEngine.tmp = 0 := rfl
@[simp] theorem State.resetEngine_out (s : State) : s.resetEngine.out = 0 := rfl
@[simp] theorem State.resetEngine_mem (s : State) : s.resetEngine.mem = s.mem := rfl
@[simp] theorem State.resetEngine_sig (s : State) : s.resetEngine.sig = Signals.none := rfl
@[simp] theorem State.resetEngine_phase (s : State) : s.resetEngine.phase = .T0 := rfl

end Sys2Proof.Machine
end

