-- ==== Sys2Proof/Laws/Step.lean ====
section
/-! SUPPORT. What the shared operations and a step can do, said once: the inversion lemmas that later proofs cite instead of
unfolding (spec/40_sequencer.md R59, R65 to R69, R72). -/

namespace Sys2Proof.Machine

@[simp] theorem Signals.asserting_nil : Signals.asserting [] = Signals.none := rfl

/-- The ALU's sum, in bit vectors. -/
theorem alu_add (acc tmp : Byte) : alu acc tmp false = acc + tmp := by
  apply BitVec.eq_of_toNat_eq
  simp only [alu, Bool.false_eq_true, if_false, BitVec.toNat_ofInt, BitVec.toNat_add]
  omega

/-- The ALU's difference, in bit vectors. -/
theorem alu_sub (acc tmp : Byte) : alu acc tmp true = acc - tmp := by
  apply BitVec.eq_of_toNat_eq
  simp only [alu, if_true, BitVec.toNat_ofInt, BitVec.toNat_sub]
  omega

/-- A commit leaves memory alone, whatever it writes. -/
@[simp] theorem State.commit_mem (s : State) (p : Phase) (g : List Signal) (ws : List (Reg × Nat)) :
    (s.commit p g ws).mem = s.mem := by
  suffices h : ∀ t : State, (ws.foldl (fun t w => t.setReg w.1 w.2) t).mem = t.mem from h s
  induction ws with
  | nil => intro t; rfl
  | cons w rest ih => intro t; simp [ih]

/-- A commit of no write. -/
theorem State.commit_none (s : State) (p : Phase) (g : List Signal) :
    s.commit p g [] = { s with sig := .asserting g, phase := p } := rfl

/-- T1 as a record. -/
theorem fetchT1_eq (s : State) : fetchT1 s = { s with mar := s.pc, sig := .asserting [.Ep, .Lm], phase := .T1 } := by
  simp [fetchT1, State.commit, State.setReg]

/-- T2 as a record. -/
theorem fetchT2_eq (s : State) :
    fetchT2 s = { s with ir := s.mem.read s.mar, pc := s.pc + 1, sig := .asserting [.Ce, .Li], phase := .T2 } := by
  have h : BitVec.ofNat 4 (s.pc.toNat + 1) = s.pc + 1 := by
    apply BitVec.eq_of_toNat_eq; simp
  simp [fetchT2, State.commit, State.setReg, cellAtMar, h]

/-- T3 as a record. -/
theorem fetchT3_eq (s : State) : fetchT3 s = { s with sig := .none, phase := .T3 } := by
  simp [fetchT3, State.commit_none]

/-- What the dispatch on the phase can answer. -/
theorem executeState_next {s t : State} {t4 t5 t6 : Result} (h : executeState s t4 t5 t6 = .next t) :
    (s.phase = .T3 ∧ t4 = .next t) ∨ (s.phase = .T4 ∧ t5 = .next t) ∨ (s.phase = .T5 ∧ t6 = .next t) ∨
    (s.phase = .Halted ∧ t = s) := by
  cases hp : s.phase <;> simp [executeState, hp] at h <;> simp [h]

/-- What LDA can do. -/
theorem exec_lda_next {a : Nibble} {s t : State} (h : exec (.lda a) s = .next t) :
    (s.phase = .T3 ∧ t = { s with mar := a, sig := .asserting [.Ei, .Lm], phase := .T4 }) ∨
    (s.phase = .T4 ∧ t = { s with acc := s.mem.read s.mar, sig := .asserting [.La], phase := .T5 }) ∨
    (s.phase = .T5 ∧ t = { s with sig := .none, phase := .T6 }) ∨ (s.phase = .Halted ∧ t = s) := by
  obtain ⟨hp, ht⟩ | ⟨hp, ht⟩ | ⟨hp, ht⟩ | h := executeState_next h
  · exact .inl ⟨hp, by cases ht; simp [State.commit, State.setReg, operandAddress]⟩
  · exact .inr (.inl ⟨hp, by cases ht; simp [State.commit, State.setReg, cellAtMar]⟩)
  · exact .inr (.inr (.inl ⟨hp, by cases ht; simp [State.commit_none]⟩))
  · exact .inr (.inr (.inr h))

/-- What ADD can do. -/
theorem exec_add_next {a : Nibble} {s t : State} (h : exec (.add a) s = .next t) :
    (s.phase = .T3 ∧ t = { s with mar := a, sig := .asserting [.Ei, .Lm], phase := .T4 }) ∨
    (s.phase = .T4 ∧ t = { s with tmp := s.mem.read s.mar, sig := .asserting [.Lb], phase := .T5 }) ∨
    (s.phase = .T5 ∧ t = { s with acc := s.acc + s.tmp, sig := .asserting [.Ea, .Eu, .La], phase := .T6 }) ∨
    (s.phase = .Halted ∧ t = s) := by
  obtain ⟨hp, ht⟩ | ⟨hp, ht⟩ | ⟨hp, ht⟩ | h := executeState_next h
  · exact .inl ⟨hp, by cases ht; simp [State.commit, State.setReg, operandAddress]⟩
  · exact .inr (.inl ⟨hp, by cases ht; simp [State.commit, State.setReg, cellAtMar]⟩)
  · exact .inr (.inr (.inl ⟨hp, by cases ht; simp only [State.commit, List.foldl, State.setReg, alu_add, BitVec.ofNat_toNat, BitVec.setWidth_eq]⟩))
  · exact .inr (.inr (.inr h))

/-- What SUB can do. -/
theorem exec_sub_next {a : Nibble} {s t : State} (h : exec (.sub a) s = .next t) :
    (s.phase = .T3 ∧ t = { s with mar := a, sig := .asserting [.Ei, .Lm], phase := .T4 }) ∨
    (s.phase = .T4 ∧ t = { s with tmp := s.mem.read s.mar, sig := .asserting [.Lb], phase := .T5 }) ∨
    (s.phase = .T5 ∧ t = { s with acc := s.acc - s.tmp, sig := .asserting [.Ea, .Eu, .La, .Su], phase := .T6 }) ∨
    (s.phase = .Halted ∧ t = s) := by
  obtain ⟨hp, ht⟩ | ⟨hp, ht⟩ | ⟨hp, ht⟩ | h := executeState_next h
  · exact .inl ⟨hp, by cases ht; simp [State.commit, State.setReg, operandAddress]⟩
  · exact .inr (.inl ⟨hp, by cases ht; simp [State.commit, State.setReg, cellAtMar]⟩)
  · exact .inr (.inr (.inl ⟨hp, by cases ht; simp only [State.commit, List.foldl, State.setReg, alu_sub, BitVec.ofNat_toNat, BitVec.setWidth_eq]⟩))
  · exact .inr (.inr (.inr h))

/-- What OUT can do. -/
theorem exec_out_next {x : Nibble} {s t : State} (h : exec (.out x) s = .next t) :
    (s.phase = .T3 ∧ t = { s with out := s.acc, sig := .asserting [.Ea, .Lo], phase := .T4 }) ∨
    (s.phase = .T4 ∧ t = { s with sig := .none, phase := .T5 }) ∨
    (s.phase = .T5 ∧ t = { s with sig := .none, phase := .T6 }) ∨ (s.phase = .Halted ∧ t = s) := by
  obtain ⟨hp, ht⟩ | ⟨hp, ht⟩ | ⟨hp, ht⟩ | h := executeState_next h
  · exact .inl ⟨hp, by cases ht; simp [State.commit, State.setReg]⟩
  · exact .inr (.inl ⟨hp, by cases ht; simp [State.commit_none]⟩)
  · exact .inr (.inr (.inl ⟨hp, by cases ht; simp [State.commit_none]⟩))
  · exact .inr (.inr (.inr h))

/-- What HLT can do. -/
theorem exec_hlt_next {x : Nibble} {s t : State} (h : exec (.hlt x) s = .next t) :
    (s.phase = .T3 ∧ t = { s with sig := .none, phase := .Halted }) ∨ (s.phase = .Halted ∧ t = s) := by
  obtain ⟨hp, ht⟩ | ⟨_, ht⟩ | ⟨_, ht⟩ | h := executeState_next h
  · exact .inl ⟨hp, by cases ht; simp [State.commit_none]⟩
  · cases ht
  · cases ht
  · exact .inr h

/-- What an unrecognized opcode can do. -/
theorem noOpCycle_next {s t : State} (h : noOpCycle s = .next t) :
    (s.phase = .T3 ∧ t = { s with sig := .none, phase := .T4 }) ∨
    (s.phase = .T4 ∧ t = { s with sig := .none, phase := .T5 }) ∨
    (s.phase = .T5 ∧ t = { s with sig := .none, phase := .T6 }) ∨ (s.phase = .Halted ∧ t = s) := by
  obtain ⟨hp, ht⟩ | ⟨hp, ht⟩ | ⟨hp, ht⟩ | h := executeState_next h
  · exact .inl ⟨hp, by cases ht; simp [State.commit_none]⟩
  · exact .inr (.inl ⟨hp, by cases ht; simp [State.commit_none]⟩)
  · exact .inr (.inr (.inl ⟨hp, by cases ht; simp [State.commit_none]⟩))
  · exact .inr (.inr (.inr h))

/-- What a step can do. -/
theorem step_next {s t : State} (h : step s = .next t) :
    ((s.phase = .T0 ∨ s.phase = .T6) ∧ t = fetchT1 s) ∨ (s.phase = .T1 ∧ t = fetchT2 s) ∨
    (s.phase = .T2 ∧ t = fetchT3 s) ∨
    ((s.phase = .T3 ∨ s.phase = .T4 ∨ s.phase = .T5) ∧ exec (decodeByte s.ir) s = .next t) ∨
    (s.phase = .Halted ∧ t = s) := by
  cases hp : s.phase <;> simp only [step, hp] at h
  case T3 | T4 | T5 => exact .inr (.inr (.inr (.inl ⟨by decide, h⟩)))
  all_goals
    cases h
    simp

/-- What a move followed by another can answer. -/
theorem andThen_next {α β : Type} {o : Host.Outcome α Fault Refusal} {f : α → Host.Outcome β Fault Refusal} {b : β}
    (h : andThen o f = .next b) : ∃ a, o = .next a ∧ f a = .next b := by
  cases o with
  | next a => exact ⟨a, rfl, h⟩
  | fault r => cases h
  | refused r => cases h

@[simp] theorem andThen_of_next {α β : Type} (a : α) (f : α → Host.Outcome β Fault Refusal) :
    andThen (.next a) f = f a := rfl

/-- No step at all. -/
@[simp] theorem runSteps_zero (s : State) : runSteps 0 s = .next s := rfl

/-- The first step, then the others. -/
theorem runSteps_succ (k : Nat) (s : State) : runSteps (k + 1) s = andThen (step s) (runSteps k) := by
  have hstep : Host.Core.step Sys2Proof.core s = step s := rfl
  simp only [runSteps, Host.Core.run, hstep]
  cases step s <;> rfl

/-- A run of `j + k` steps is one of `j` and then one of `k`. -/
theorem runSteps_add (j k : Nat) (s : State) : runSteps (j + k) s = andThen (runSteps j s) (runSteps k) := by
  induction j generalizing s with
  | zero => simp
  | succ j ih =>
    rw [Nat.add_right_comm, runSteps_succ, runSteps_succ]
    cases step s <;> simp [andThen, ih]

end Sys2Proof.Machine
end

