-- ==== Sys2Proof/Laws/Driver.lean ====
section
/-! SUPPORT. What the driver's operations can answer, said once (spec/40_sequencer.md R72 to R76; 20_memory.md R38). -/

namespace Sys2Proof.Machine

/-- What the driver's single step can answer. -/
theorem driverStep_next {s : State} {r : Stepped} (h : driverStep s = .next r) :
    step s = .next r.state ∧ r.terminal = r.state.terminal := by
  obtain ⟨t, ht, hr⟩ := andThen_next h
  cases hr
  exact ⟨ht, rfl⟩

/-- What `fetch_cycle` can answer: three steps from a cycle boundary, or a Halted engine as it is. -/
theorem fetchCycle_next {s : State} {r : Stepped} (h : fetchCycle s = .next r) :
    (s.AtBoundary ∧ ∃ s₁ s₂, step s = .next s₁ ∧ step s₁ = .next s₂ ∧ step s₂ = .next r.state ∧
      r.terminal = r.state.terminal) ∨
    (s.phase = .Halted ∧ r = { state := s, terminal := true }) := by
  cases hp : s.phase <;> simp only [fetchCycle, hp] at h
  case T0 | T6 =>
    obtain ⟨s₁, h₁, h⟩ := andThen_next h
    obtain ⟨s₂, h₂, h⟩ := andThen_next h
    obtain ⟨h₃, ht⟩ := driverStep_next h
    exact .inl ⟨by simp [State.AtBoundary, hp], s₁, s₂, h₁, h₂, h₃, ht⟩
  case Halted =>
    cases h
    exact .inr ⟨rfl, rfl⟩
  all_goals cases h

/-- What `execute_cycle` can answer: the steps from T3 to the end of the cycle, or a Halted engine as it is. -/
theorem executeCycle_next {s : State} {r : Stepped} (h : executeCycle s = .next r) :
    (s.phase = .T3 ∧ stepToCycleEnd 3 s = .next r) ∨ (s.phase = .Halted ∧ r = { state := s, terminal := true }) := by
  cases hp : s.phase <;> simp only [executeCycle, hp] at h
  case T3 => exact .inl ⟨rfl, h⟩
  case Halted =>
    cases h
    exact .inr ⟨rfl, rfl⟩
  all_goals cases h

/-- What a cycle can answer. -/
theorem cycle_next {s : State} {r : Stepped} (h : cycle s = .next r) :
    ∃ f, fetchCycle s = .next f ∧ executeCycle f.state = .next r := andThen_next h

/-- What the load can answer. -/
theorem load_next {img : Image} {s t : State} (h : load img s = .next t) :
    s.phase = .T0 ∧ t = { s with mem := Memory.ofImage img } := by
  cases hp : s.phase <;> simp only [load, hp] at h
  case T0 =>
    cases h
    exact ⟨rfl, rfl⟩
  all_goals cases h

end Sys2Proof.Machine
end

