-- ==== Sys2Proof/Laws/Memory.lean ====
section
/-! SUPPORT. The laws of the memory: every operation keeps the canonical form, a read after a write, the loaded image, and that
canonical memories which read alike are equal data. -/

namespace Sys2Proof.Machine

/-- The canonical form from an address holds from every lower one. -/
theorem Memory.wfFrom_mono {m : Memory} {lo lo' : Nat} (hle : lo' ≤ lo) (h : Memory.wfFrom lo m = true) :
    Memory.wfFrom lo' m = true := by
  cases m with
  | nil => rfl
  | cons c rest =>
    obtain ⟨k, v⟩ := c
    simp only [Memory.wfFrom, Bool.and_eq_true, decide_eq_true_eq] at h ⊢
    exact ⟨⟨⟨by omega, h.1.1.2⟩, h.1.2⟩, h.2⟩

/-- A canonical memory lists nothing below the address it is canonical from. -/
theorem Memory.lookup_below {m : Memory} {lo n : Nat} (h : Memory.wfFrom lo m = true) (hn : n < lo) :
    Memory.lookup m n = Config.unlistedByte := by
  induction m generalizing lo with
  | nil => rfl
  | cons c rest ih =>
    obtain ⟨k, v⟩ := c
    simp only [Memory.wfFrom, Bool.and_eq_true, decide_eq_true_eq] at h
    have hk : k ≠ n := by omega
    simp only [Memory.lookup, if_neg hk]
    exact ih h.2 (by omega)

/-- Setting a cell at or above `lo` keeps the canonical form from `lo`. -/
theorem Memory.set_wfFrom {m : Memory} {lo n : Nat} {b : Byte} (h : Memory.wfFrom lo m = true) (hlo : lo ≤ n)
    (hn : n < Config.memCells) : Memory.wfFrom lo (Memory.set m n b) = true := by
  induction m generalizing lo with
  | nil =>
    by_cases hb : b = Config.unlistedByte
    · simp [Memory.set, hb, Memory.wfFrom]
    · simp [Memory.set, hb, Memory.wfFrom, hlo, hn]
  | cons c rest ih =>
    obtain ⟨k, v⟩ := c
    have h0 := h
    simp only [Memory.wfFrom, Bool.and_eq_true, decide_eq_true_eq] at h
    obtain ⟨⟨⟨hlk, hk⟩, hv⟩, hrest⟩ := h
    rcases Nat.lt_trichotomy n k with hlt | heq | hgt
    · by_cases hb : b = Config.unlistedByte
      · simp [Memory.set, hlt, hb, Memory.wfFrom, hlk, hk, hrest]
        simpa [hb] using hv
      · have hkn : n + 1 ≤ k := hlt
        simp [Memory.set, hlt, hb, Memory.wfFrom, hlo, hn, hkn, hk, hv, hrest]
    · subst heq
      by_cases hb : b = Config.unlistedByte
      · simp only [Memory.set, Nat.lt_irrefl, if_false, if_true, hb]
        exact Memory.wfFrom_mono (by omega) hrest
      · simp [Memory.set, hb, Memory.wfFrom, hlo, hn, hrest]
    · have h1 : ¬ n < k := by omega
      have h2 : ¬ n = k := by omega
      simp only [Memory.set, if_neg h1, if_neg h2, Memory.wfFrom, Bool.and_eq_true, decide_eq_true_eq]
      exact ⟨⟨⟨hlk, hk⟩, hv⟩, ih hrest (by omega)⟩

/-- A lookup after setting a cell. -/
theorem Memory.lookup_set {m : Memory} {lo n j : Nat} {b : Byte} (h : Memory.wfFrom lo m = true) :
    Memory.lookup (Memory.set m n b) j = if j = n then b else Memory.lookup m j := by
  induction m generalizing lo with
  | nil =>
    by_cases hb : b = Config.unlistedByte <;> by_cases hj : j = n <;>
      simp [Memory.set, Memory.lookup, hb, hj, Ne.symm]
  | cons c rest ih =>
    obtain ⟨k, v⟩ := c
    simp only [Memory.wfFrom, Bool.and_eq_true, decide_eq_true_eq] at h
    obtain ⟨⟨⟨hlk, hk⟩, hv⟩, hrest⟩ := h
    rcases Nat.lt_trichotomy n k with hlt | heq | hgt
    · by_cases hb : b = Config.unlistedByte
      · simp only [Memory.set, if_pos hlt, if_pos hb]
        split
        · rename_i hj
          have hkn : ¬ k = j := by omega
          have hjk : j < k + 1 := by omega
          rw [hb, Memory.lookup, if_neg hkn]
          exact Memory.lookup_below hrest hjk
        · rfl
      · simp only [Memory.set, if_pos hlt, if_neg hb, Memory.lookup, eq_comm (a := n) (b := j)]
    · subst heq
      by_cases hb : b = Config.unlistedByte
      · simp only [Memory.set, Nat.lt_irrefl, if_false, if_true, hb]
        split
        · rename_i hj
          exact Memory.lookup_below hrest (by omega)
        · rename_i hj
          rw [Memory.lookup, if_neg (Ne.symm hj)]
      · simp only [Memory.set, Nat.lt_irrefl, if_false, if_true, if_neg hb, Memory.lookup]
        split <;> split <;> first | rfl | omega
    · have h1 : ¬ n < k := by omega
      have h2 : ¬ n = k := by omega
      simp only [Memory.set, if_neg h1, if_neg h2, Memory.lookup, ih hrest]
      split <;> split <;> first | rfl | omega

/-- A write keeps the canonical form. -/
theorem Memory.write_wf {m : Memory} {a : Addr} {b : Byte} (h : m.wf = true) : (m.write a b).wf = true :=
  Memory.set_wfFrom h (Nat.zero_le _) a.isLt

/-- A read after a write: the value written at its address, and every other cell as before. -/
theorem Memory.read_write {m : Memory} {a c : Addr} {b : Byte} (h : m.wf = true) :
    (m.write a b).read c = if c = a then b else m.read c := by
  simp only [Memory.read, Memory.write, Memory.lookup_set h, BitVec.toNat_inj]

/-- A run of bytes that ends within the address space is canonical. -/
theorem Memory.ofBytes_wfFrom (bs : List Byte) (lo : Nat) (h : lo + bs.length ≤ Config.memCells) :
    Memory.wfFrom lo (Memory.ofBytes lo bs) = true := by
  induction bs generalizing lo with
  | nil => rfl
  | cons b rest ih =>
    simp only [List.length_cons] at h
    have hrest := ih (lo + 1) (by omega)
    by_cases hb : b = Config.unlistedByte
    · simp only [Memory.ofBytes, if_pos hb]
      exact Memory.wfFrom_mono (by omega) hrest
    · have hlo : lo < Config.memCells := by omega
      simp [Memory.ofBytes, hb, Memory.wfFrom, hlo, hrest]

/-- The cell `lo + j` of a run of bytes holds its `j`-th byte. -/
theorem Memory.lookup_ofBytes (bs : List Byte) (lo j : Nat) (hmem : lo + bs.length ≤ Config.memCells) :
    Memory.lookup (Memory.ofBytes lo bs) (lo + j) = bs.getD j Config.unlistedByte := by
  induction bs generalizing lo j with
  | nil => rfl
  | cons b rest ih =>
    simp only [List.length_cons] at hmem
    have hwf := Memory.ofBytes_wfFrom rest (lo + 1) (by omega)
    cases j with
    | zero =>
      by_cases hb : b = Config.unlistedByte
      · simp only [Memory.ofBytes, List.getD_cons_zero, Nat.add_zero, hb]
        exact Memory.lookup_below hwf (by omega)
      · simp [Memory.ofBytes, hb, Memory.lookup]
    | succ j =>
      have hne : ¬ lo = lo + (j + 1) := by omega
      have key := ih (lo + 1) j (by omega)
      have harith : lo + (j + 1) = lo + 1 + j := by omega
      by_cases hb : b = Config.unlistedByte
      · simp only [Memory.ofBytes, if_pos hb, List.getD_cons_succ, harith, key]
      · simp only [Memory.ofBytes, if_neg hb, Memory.lookup, List.getD_cons_succ, harith, key]
        split <;> first | omega | rfl

/-- The load's memory is canonical. -/
theorem Memory.ofImage_wf (img : Image) : (Memory.ofImage img).wf = true :=
  Memory.ofBytes_wfFrom _ 0 (by simp [Config.memCells])

/-- A read of the load's memory is the image's byte. -/
theorem Memory.read_ofImage (img : Image) (a : Addr) : (Memory.ofImage img).read a = img[a.toFin] := by
  have h := Memory.lookup_ofBytes img.toList 0 a.toNat (by simp [Config.memCells])
  have ha : a.toNat < img.toList.length := by simpa using a.isLt
  rw [Nat.zero_add, List.getD_eq_getElem _ _ ha] at h
  simpa [Memory.read, Memory.ofImage] using h

/-- Canonical memories that answer every lookup alike are the same data. -/
theorem Memory.ext_wfFrom {m₁ m₂ : Memory} {lo : Nat} (h₁ : Memory.wfFrom lo m₁ = true) (h₂ : Memory.wfFrom lo m₂ = true)
    (h : ∀ n, n < Config.memCells → Memory.lookup m₁ n = Memory.lookup m₂ n) : m₁ = m₂ := by
  induction m₁ generalizing m₂ lo with
  | nil =>
    cases m₂ with
    | nil => rfl
    | cons c rest =>
      obtain ⟨k, v⟩ := c
      simp only [Memory.wfFrom, Bool.and_eq_true, decide_eq_true_eq] at h₂
      have := h k h₂.1.1.2
      simp only [Memory.lookup, if_true] at this
      exact absurd this.symm h₂.1.2
  | cons c rest ih =>
    obtain ⟨k, v⟩ := c
    have h₁' := h₁
    simp only [Memory.wfFrom, Bool.and_eq_true, decide_eq_true_eq] at h₁
    cases m₂ with
    | nil =>
      have := h k h₁.1.1.2
      simp only [Memory.lookup, if_true] at this
      exact absurd this h₁.1.2
    | cons c' rest' =>
      obtain ⟨k', v'⟩ := c'
      have h₂' := h₂
      simp only [Memory.wfFrom, Bool.and_eq_true, decide_eq_true_eq] at h₂
      have hk : k = k' := by
        rcases Nat.lt_trichotomy k k' with hlt | heq | hgt
        · have e := h k h₁.1.1.2
          have hne : ¬ k' = k := by omega
          simp only [Memory.lookup, if_true, if_neg hne] at e
          rw [Memory.lookup_below h₂.2 (by omega)] at e
          exact absurd e h₁.1.2
        · exact heq
        · have e := h k' h₂.1.1.2
          have hne : ¬ k = k' := by omega
          simp only [Memory.lookup, if_true, if_neg hne] at e
          rw [Memory.lookup_below h₁.2 (by omega)] at e
          exact absurd e.symm h₂.1.2
      subst hk
      have hv : v = v' := by simpa [Memory.lookup] using h k h₁.1.1.2
      subst hv
      have hrest : rest = rest' := by
        refine ih h₁.2 h₂.2 fun n hn => ?_
        by_cases hnk : k = n
        · rw [Memory.lookup_below h₁.2 (by omega), Memory.lookup_below h₂.2 (by omega)]
        · simpa [Memory.lookup, hnk] using h n hn
      rw [hrest]

/-- Canonical memories that read alike at all 16 addresses are the same data. -/
theorem Memory.ext_read {m₁ m₂ : Memory} (h₁ : m₁.wf = true) (h₂ : m₂.wf = true) (h : ∀ a, m₁.read a = m₂.read a) :
    m₁ = m₂ := by
  refine Memory.ext_wfFrom h₁ h₂ fun n hn => ?_
  have hmod : n % 16 = n := Nat.mod_eq_of_lt hn
  simpa [Memory.read, hmod] using h (BitVec.ofNat 4 n)

end Sys2Proof.Machine
end

