-- ==== Sys2Proof/Laws/PerInstr.lean ====
section
/-! SUPPORT. The per-instruction family EncodeFields: the byte of an instruction has its opcode in the high nibble and its
operand in the low one (spec/30_encoding.md R49). -/

namespace Sys2Proof.Laws.EncodeFields

/-- The byte's two fields are the instruction's opcode and operand. -/
def Statement (i : Instr) : Prop := opcodeField (encodeByte i) = i.opcode ∧ operandField (encodeByte i) = i.operand

/-- The fields of the encoding, whatever the row. -/
theorem fields_of_encodeByte (i : Instr) : Statement i := by
  simp [Statement, encodeByte_eq_append]

theorem lda (x : Nibble) : Statement (.lda x) := fields_of_encodeByte _
theorem add (x : Nibble) : Statement (.add x) := fields_of_encodeByte _
theorem sub (x : Nibble) : Statement (.sub x) := fields_of_encodeByte _
theorem out (x : Nibble) : Statement (.out x) := fields_of_encodeByte _
theorem hlt (x : Nibble) : Statement (.hlt x) := fields_of_encodeByte _
theorem unrec0 (x : Nibble) : Statement (.unrec0 x) := fields_of_encodeByte _
theorem unrec4 (x : Nibble) : Statement (.unrec4 x) := fields_of_encodeByte _
theorem unrec5 (x : Nibble) : Statement (.unrec5 x) := fields_of_encodeByte _
theorem unrec6 (x : Nibble) : Statement (.unrec6 x) := fields_of_encodeByte _
theorem unrec7 (x : Nibble) : Statement (.unrec7 x) := fields_of_encodeByte _
theorem unrec8 (x : Nibble) : Statement (.unrec8 x) := fields_of_encodeByte _
theorem unrec9 (x : Nibble) : Statement (.unrec9 x) := fields_of_encodeByte _
theorem unrecA (x : Nibble) : Statement (.unrecA x) := fields_of_encodeByte _
theorem unrecB (x : Nibble) : Statement (.unrecB x) := fields_of_encodeByte _
theorem unrecC (x : Nibble) : Statement (.unrecC x) := fields_of_encodeByte _
theorem unrecD (x : Nibble) : Statement (.unrecD x) := fields_of_encodeByte _

end Sys2Proof.Laws.EncodeFields
end

