-- ==== Sys2Proof/Tests/Slice0.lean ====
section
/-! SUPPORT. Tests with expected results taken from spec/ (30_encoding.md R52, 95_test_vectors.md), and a witness for the hypotheses
of each statement. -/

namespace Sys2Proof.Tests

open Sys2Proof.Machine

/-! ## Well-formedness: an ill-formed term for each check -/

theorem test_address_16_is_ill_formed :
    (Item.lda 16).wellFormed = false ∧ (Item.add 16).wellFormed = false ∧ (Item.sub 16).wellFormed = false := by decide

theorem test_value_256_is_ill_formed : (Item.data 256).wellFormed = false ∧ (Item.byte 256).wellFormed = false := by decide

theorem test_line_at_cell_16_is_ill_formed : ProgramText.wellFormed [(16, .hlt)] = false := by decide

theorem test_two_lines_for_one_cell_are_ill_formed : ProgramText.wellFormed [(3, .out), (3, .hlt)] = false := by decide

theorem test_text_with_an_ill_formed_item_is_ill_formed : ProgramText.wellFormed [(3, .lda 16)] = false := by decide

theorem test_text_at_the_bounds_is_well_formed : ProgramText.wellFormed [(15, .lda 15), (0, .data 255)] = true := by decide

/-- Every instruction term is well formed (30_encoding.md R51): the check refuses none, because the types hold no ill-formed
one. -/
theorem instr_wellFormed (i : Instr) : i.wellFormed = true := by cases i <;> rfl

/-! ## Decoding: the words of 30_encoding.md R52, written out bit by bit -/

theorem test_decode_the_five_instructions :
    decode [0b00011001] = .ok (.lda 9, []) ∧ decode [0b00101010] = .ok (.add 10, []) ∧
    decode [0b00111011] = .ok (.sub 11, []) ∧ decode [0b11100111] = .ok (.out 7, []) ∧
    decode [0b11110011] = .ok (.hlt 3, []) := ⟨rfl, rfl, rfl, rfl, rfl⟩

theorem test_decode_the_unassigned_opcodes :
    decodeByte 0b00000001 = .unrec0 1 ∧ decodeByte 0b01001010 = .unrec4 10 ∧ decodeByte 0b01010010 = .unrec5 2 ∧
    decodeByte 0b01100011 = .unrec6 3 ∧ decodeByte 0b01110100 = .unrec7 4 ∧ decodeByte 0b10000101 = .unrec8 5 ∧
    decodeByte 0b10010110 = .unrec9 6 ∧ decodeByte 0b10100111 = .unrecA 7 ∧ decodeByte 0b10111000 = .unrecB 8 ∧
    decodeByte 0b11001001 = .unrecC 9 ∧ decodeByte 0b11011111 = .unrecD 15 := by decide

theorem test_decode_of_no_byte_is_rejected : decode [] = .error .noByte := rfl

theorem test_encode : encode (.sub 11) = [0x3B] ∧ encode (.out 0) = [0xE0] ∧ encode (.unrecD 15) = [0xDF] := by decide

theorem test_decode_table_word : decodeTableWord 8 0x2A = some (.add 10) ∧ decodeTableWord 8 0x40 = some (.unrec4 0) := by
  decide

/-! ## One step each, from the vectors of 95_test_vectors.md -/

/-- A small state: `mem[0] = 0x19`, `mem[5] = 100`, `mem[15] = 0x1F`. -/
def small (phase : Phase) (ir : Byte) : State :=
  { pc := 15, mar := 5, acc := 200, ir := ir, tmp := 100, out := 7, sig := .none, phase := phase,
    mem := [(0, 0x19), (5, 100), (15, 0x1F)] }

/-- The state an outcome answers, if it answers one. -/
def after (o : Result) : Option State :=
  match o with
  | .next s => some s
  | .fault _ | .refused _ => none

/-- V-F-2: T1 copies PC to MAR; section 2.7: the set is {Ep,Lm}. -/
theorem test_t1 : (after (step (small .T6 0))).map (fun t => (t.mar, t.pc, t.sig.toWord)) = some (15, 15, 0x600) := by decide

/-- V-F-2: T2 loads IR and wraps PC from 15 to 0; section 2.7: the set is {Ce,Li}, without Cp. -/
theorem test_t2_wraps_pc :
    (after (step { small .T1 0 with mar := 15 })).map (fun t => (t.ir, t.pc, t.sig.toWord)) = some (0x1F, 0, 0x180) := by
  decide

theorem test_t3_asserts_nothing : (after (step (small .T2 0xF0))).map (fun t => (t.phase, t.sig.toWord)) = some (.T3, 0) := by
  decide

/-- Part 3, step 4. -/
theorem test_lda_t4_loads_mar :
    (after (step (small .T3 0x19))).map (fun t => (t.mar, t.phase, t.sig.toWord)) = some (9, .T4, 0x240) := by decide

/-- R84: ACC takes the whole cell, TMP keeps its value. -/
theorem test_lda_t5_loads_acc :
    (after (step { small .T4 0x15 with tmp := 3 })).map (fun t => (t.acc, t.tmp, t.sig.toWord)) = some (100, 3, 0x020) := by
  decide

theorem test_add_t5_loads_tmp :
    (after (step { small .T4 0x25 with tmp := 3 })).map (fun t => (t.acc, t.tmp, t.sig.toWord)) = some (200, 100, 0x002) := by
  decide

/-- V-ADD-2: 200 + 100 wraps to 44. -/
theorem test_add_t6_wraps :
    (after (step (small .T5 0x25))).map (fun t => (t.acc, t.tmp, t.sig.toWord)) = some (44, 100, 0x034) := by decide

theorem test_sub_t5_loads_tmp :
    (after (step { small .T4 0x35 with tmp := 3 })).map (fun t => (t.acc, t.tmp, t.sig.toWord)) = some (200, 100, 0x002) := by
  decide

/-- V-SUB-1: 70 - 100 wraps to 226. -/
theorem test_sub_t6_wraps :
    (after (step { small .T5 0x35 with acc := 70 })).map (fun t => (t.acc, t.tmp, t.sig.toWord)) = some (226, 100, 0x03C) := by
  decide

/-- V-OUT-2: the operand is ignored, and MAR is not loaded from it. -/
theorem test_out_t4_copies_acc :
    (after (step (small .T3 0xE7))).map (fun t => (t.out, t.mar, t.sig.toWord)) = some (200, 5, 0x011) := by decide

/-- V-HLT-2: the operand is ignored. -/
theorem test_hlt_t4_halts : (after (step (small .T3 0xF3))).map (fun t => (t.phase, t.out, t.sig.toWord)) =
    some (.Halted, 7, 0) := by decide

/-- V-UNK-3, for each of the eleven opcodes: MAR is not loaded from the operand, and nothing is asserted. -/
theorem test_unrecognized_t4_does_nothing :
    ∀ b ∈ [0x0A#8, 0x4A#8, 0x5A#8, 0x6A#8, 0x7A#8, 0x8A#8, 0x9A#8, 0xAA#8, 0xBA#8, 0xCA#8, 0xDA#8],
      after (step (small .T3 b)) = some { small .T3 b with phase := .T4 } := by decide

theorem test_fetch_word_runs_next :
    (after (step (State.reset.withFetchWord 8 0x2A))).map (fun t => (t.mar, t.pc, t.phase)) = some (10, 1, .T4) := by decide

/-! ## The driver and the observation -/

/-- V-RUN-10, V-RUN-14. -/
theorem test_moves_the_driver_does_not_have :
    fetchCycle (small .T2 0) = .refused .fetchCycleOffBoundary ∧ executeCycle (small .T2 0) = .refused .executeCycleOffT3 ∧
    runToHalt 3 (small .T2 0) = .refused .runToHaltOffBoundary ∧
    load (Vector.replicate 16 1) (small .T6 0) = .refused .loadOffIdle := ⟨rfl, rfl, rfl, rfl⟩

/-- V-RUN-11. -/
theorem test_execute_cycle_of_hlt : executeCycle (small .T3 0xF0) =
    .next { state := { small .T3 0xF0 with phase := .Halted }, terminal := true } := rfl

/-- V-RUN-5, and D5: on a Halted engine fetch_cycle changes nothing and reports terminal. -/
theorem test_fetch_cycle_when_halted : fetchCycle (small .Halted 0xF0) = .next { state := small .Halted 0xF0, terminal := true } :=
  rfl

/-- V-RUN-1: a cap of 0 performs nothing. -/
theorem test_run_to_halt_of_cap_0 : runToHalt 0 (small .T0 0) = .next { state := small .T0 0, halted := false, cycles := 0 } :=
  rfl

/-- R58, and section 4.3: the text of the decoded view. -/
theorem test_decoded_view_text :
    (decodedView 0x2A).text = "ADD 10" ∧ (decodedView 0xF3).text = "HLT 3" ∧ (decodedView 0x4A).text = "??? op=4" := by decide

/-- Part 3, step 12: the bus value at T6 of ADD is the new ACC. -/
theorem test_bus_value_of_add : ({ small .T6 0x2A with acc := 70 } : State).busValue = some 70 := by decide

/-- R56: a line's cell holds its byte, every other cell 0x00. -/
theorem test_assemble : (assemble [(0, .lda 9), (9, .data 45)]).map Vector.toList =
    some [0x19, 0, 0, 0, 0, 0, 0, 0, 0, 45, 0, 0, 0, 0, 0, 0] := by decide

theorem test_reset_memory_is_canonical : State.reset.mem.wf = true := by decide

/-- Writing what an unlisted cell reads as removes the entry. -/
theorem test_write_of_zero_unlists : Memory.write [(3, 7), (9, 1)] 3 0 = [(9, 1)] := by decide

/-! ## Witnesses: a concrete case that meets all the hypotheses of each statement -/

theorem witness_StepWritesOnlyTheTabledRegisters :
    (small .T3 0x19).phase ≠ .Halted ∧ step (small .T3 0x19) = .next { small .T3 0x19 with
      mar := 9, sig := .asserting [.Ei, .Lm], phase := .T4 } ∧ Reg.acc ∉ tabledWrites .T4 (decodeByte 0x19) :=
  ⟨by decide, rfl, by decide⟩

theorem witness_MatrixIsNeverRead : (small .T5 0x25).phase ≠ .Halted := by decide

theorem witness_SignalWordIsOneOfTheNine :
    (small .T1 0).phase ≠ .Halted ∧ (after (step (small .T1 0))).isSome = true := by decide

theorem witness_HaltedIsEnteredByHltAndLeftByResetAlone :
    ((small .T3 0xFF).phase ≠ .Halted ∧ step (small .T3 0xFF) = .next { small .T3 0xFF with phase := .Halted }) ∧
    (small .Halted 0xF0).phase = .Halted ∧
    (DriverOp.fetchCycle ≠ .reset ∧ drive .fetchCycle (small .Halted 0xF0) = .next (small .Halted 0xF0)) :=
  ⟨⟨by decide, rfl⟩, rfl, by decide, rfl⟩

theorem witness_EngineNeverWritesMemory : (after (runSteps 1 (small .T3 0xE0))).isSome = true := by decide

theorem witness_OutRegisterIsNeverRead : (after (step (small .T3 0xE0))).isSome = true := by decide

theorem witness_MemoryIsReadOnlyAtTheTabledTStates :
    ((small .T4 0xE0).phase ≠ .T1 ∧ ¬((small .T4 0xE0).phase = .T4 ∧ (decodeByte (small .T4 0xE0).ir).usesMemory = true)) ∧
    (after (step (small .T4 0xE0))).isSome = true := by decide

theorem witness_LoadWritesEveryCellAndOnlyAtT0 : (small .T0 0).phase = .T0 ∧ (small .T1 0).phase ≠ .T0 := by decide

theorem witness_OnlyTheLoadChangesMemory :
    (∀ img, DriverOp.step ≠ .load img) ∧ (after (drive .step (small .T1 0))).isSome = true ∧
    (after (drive (.load (Vector.replicate 16 255)) (small .T0 0))).isSome = true :=
  ⟨by simp, by decide, by decide⟩

theorem witness_EveryCellKeepsTheLoadedValue :
    (∃ r, load (Vector.replicate 16 255) r = .next (State.construct (Vector.replicate 16 255))) ∧
    (after (runSteps 1 (State.construct (Vector.replicate 16 255)))).isSome = true :=
  ⟨⟨State.reset, rfl⟩, by decide⟩

theorem witness_ProgramTextBecomesItsImage :
    ProgramText.wellFormed [(16, .out)] = false ∧ ProgramText.wellFormed [(15, .lda 15)] = true ∧
    ((15 : Fin 16).val, Item.lda 15) ∈ [(15, Item.lda 15)] ∧ ∀ it, ((0 : Fin 16).val, it) ∉ [(15, Item.lda 15)] :=
  ⟨by decide, by decide, by decide, by simp⟩

theorem witness_NotationNamesTheInstructions : 0 < 16 ∧ 15 < 16 ∧ 255 < 256 := by decide

theorem witness_IgnoredOperandHasNoEffect : Instr.unrecD 15 ∈ [Instr.unrec0 15, .unrec4 15, .unrec5 15, .unrec6 15, .unrec7 15,
    .unrec8 15, .unrec9 15, .unrecA 15, .unrecB 15, .unrecC 15, .unrecD 15] := by decide

theorem witness_PhaseMovesAsTabled :
    (after (step (small .T3 0x19))).map (fun t => decide t.Executing) = some true := by decide

theorem witness_AssertedSetIsTheTabledOne :
    (small .T5 0x35).phase ≠ .Halted ∧ (after (step (small .T5 0x35))).isSome = true := by decide

theorem witness_CpIsNeverAssertedAndCeOnlyAtT2 :
    (small .T1 0).phase ≠ .Halted ∧ (after (step (small .T1 0))).map State.phase = some .T2 := by decide

theorem witness_FetchTStates :
    (small .T0 0).phase = .T0 ∧ (small .T6 0).phase = .T6 ∧ (small .T1 0).phase = .T1 ∧ (small .T2 0).phase = .T2 := by decide

theorem witness_FetchCycleIsThreeTStates :
    (small .T0 0).AtBoundary ∧ (small .T6 0).AtBoundary ∧ (small .Halted 0).phase = .Halted ∧
    (¬(small .T5 0).AtBoundary ∧ (small .T5 0).phase ≠ .Halted) := by decide

theorem witness_StepRunsTheDecodedInstruction :
    ((small .T3 0).phase = .T3 ∧ (small .T4 0).phase = .T4 ∧ (small .T5 0).phase = .T5) ∧
    (small .T6 0).AtBoundary ∧ decode [(small .T6 0).mem.read (small .T6 0).pc] = .ok (.lda 15, []) :=
  ⟨by decide, by decide, rfl⟩

theorem witness_FetchWordIsWhatTheNextStepRuns :
    (small .T0 0).mem.wf = true ∧ decodeTableWord 8 0xFF = some (.hlt 15) ∧ (0 : Addr) ≠ (small .T0 0).pc := by decide

theorem witness_PcChangesOnlyAtT2 :
    (after (step (small .T1 0))).map State.phase = some .T2 ∧ (after (step (small .T0 0))).map State.phase = some .T1 := by
  decide

theorem witness_HaltedEngineIsFrozen : (small .Halted 0xF0).phase = .Halted := rfl

theorem witness_ExecuteCycleEndsAtT6OrHalted :
    ((small .T3 0xF0).phase = .T3 ∧ (decodeByte (small .T3 0xF0).ir).isHlt = true) ∧
    ((small .T3 0xEF).phase = .T3 ∧ (decodeByte (small .T3 0xEF).ir).isHlt = false) ∧
    (small .Halted 0).phase = .Halted ∧ ((small .T4 0).phase ≠ .T3 ∧ (small .T4 0).phase ≠ .Halted) := by decide

theorem witness_RunToHaltIsItsTStates : (small .T0 0).AtBoundary ∧ (small .T6 0).AtBoundary := by decide

theorem witness_RunToHaltAtItsEdges :
    (small .T0 0).AtBoundary ∧ ¬(small .T1 0).AtBoundary ∧ (small .T1 0).phase ≠ .Halted := by decide

/-- HLT in the cell at PC, and HLT one cell on, as the last cell of the cap. -/
theorem witness_FirstHltInAddressOrderHalts :
    (let s : State := { small .T0 0 with pc := 0, mem := [(0, 0xF0)] }
     s.AtBoundary ∧ (decodeByte (s.mem.read (s.pc + 0))).isHlt = true) ∧
    (let s : State := { small .T0 0 with pc := 15, mem := [(0, 0xF0)] }
     s.AtBoundary ∧ 1 < 2 ∧ (decodeByte (s.mem.read (s.pc + 0))).isHlt = false ∧
       (decodeByte (s.mem.read (s.pc + 1))).isHlt = true) := by decide

theorem witness_MemoryWithoutHltIsCapped :
    (small .T0 0).AtBoundary ∧ ∀ a, (decodeByte ((small .T0 0).mem.read a)).isHlt = false := by decide

/-- Each clause's phase and opcode, at states that a step leads to. -/
theorem witness_BusValueIsTheValueMoved :
    (small .T6 0).phase ≠ .Halted ∧ (after (step (small .T6 0))).map State.phase = some .T1 ∧
    (after (step (small .T1 0))).map State.phase = some .T2 ∧
    (after (step (small .T2 0))).map State.sig = some .none ∧
    (after (step (small .T3 0x3F))).map (fun t => (t.phase, (decodeByte t.ir).usesMemory)) = some (.T4, true) ∧
    (after (step (small .T3 0xE0))).map (fun t => (t.phase, opcodeField t.ir)) = some (.T4, 0xE) ∧
    (after (step (small .T4 0x10))).map (fun t => (t.phase, opcodeField t.ir)) = some (.T5, 0x1) ∧
    (after (step (small .T4 0x20))).map (fun t => (t.phase, opcodeField t.ir)) = some (.T5, 0x2) ∧
    (after (step (small .T5 0x20))).map (fun t => (t.phase, opcodeField t.ir)) = some (.T6, 0x2) ∧
    (after (step (small .T5 0x30))).map (fun t => (t.phase, opcodeField t.ir)) = some (.T6, 0x3) := by decide

theorem witness_LdaTStates : (small .T3 0x1F).phase = .T3 ∧ (small .T4 0x1F).phase = .T4 ∧ (small .T5 0x1F).phase = .T5 := by decide

theorem witness_AddTStates : (small .T3 0x2F).phase = .T3 ∧ (small .T4 0x2F).phase = .T4 ∧ (small .T5 0x2F).phase = .T5 := by decide

theorem witness_SubTStates : (small .T3 0x3F).phase = .T3 ∧ (small .T4 0x3F).phase = .T4 ∧ (small .T5 0x3F).phase = .T5 := by decide

theorem witness_OutTStates : (small .T3 0xEF).phase = .T3 ∧ (small .T4 0xEF).phase = .T4 ∧ (small .T5 0xEF).phase = .T5 := by decide

theorem witness_HltTState : (small .T3 0xFF).phase = .T3 ∧ decodeByte (small .T3 0xFF).ir = .hlt 15 := by decide

theorem witness_UnrecognizedTStates :
    (((0x0 : Nibble) = 0x0) ∧ ((0x4 : Nibble) ≤ 0x4 ∧ (0x4 : Nibble) ≤ 0xD) ∧ ((0x4 : Nibble) ≤ 0xD ∧ (0xD : Nibble) ≤ 0xD)) ∧
    Instr.unrec0 15 ∈ [Instr.unrec0 15, .unrec4 15, .unrec5 15, .unrec6 15, .unrec7 15, .unrec8 15, .unrec9 15, .unrecA 15,
      .unrecB 15, .unrecC 15, .unrecD 15] ∧
    (small .T3 0xDF).phase = .T3 ∧ (small .T4 0xDF).phase = .T4 ∧ (small .T5 0xDF).phase = .T5 := by decide

theorem witness_ExecuteFrames :
    (after (exec (.lda 15) (small .T4 0x1F))).isSome = true ∧ (after (exec (.add 15) (small .T5 0x2F))).isSome = true ∧
    (after (exec (.sub 15) (small .T5 0x3F))).isSome = true ∧ (after (exec (.out 15) (small .T3 0xEF))).isSome = true ∧
    (after (exec (.hlt 15) (small .T3 0xFF))).isSome = true ∧ (after (exec (.unrecD 15) (small .T3 0xDF))).isSome = true := by
  decide

theorem witness_ExecStopsByNameOffItsPhases :
    ((small .T0 0).phase = .T0 ∧ (small .T1 0).phase = .T1 ∧ (small .T2 0).phase = .T2 ∧ (small .T6 0).phase = .T6) ∧
    ((small .T4 0).phase = .T4 ∧ (small .T5 0).phase = .T5) ∧ (small .Halted 0).phase = .Halted := by decide

theorem witness_LdaCycleEndState :
    (small .T6 0).AtBoundary ∧ decodeByte ((small .T6 0).mem.read (small .T6 0).pc) = .lda 15 := by decide

theorem witness_AddAndSubCycleEndState :
    (small .T0 0).AtBoundary ∧
    (let s : State := { small .T0 0 with mem := [(15, 0x2F)] }; decodeByte (s.mem.read s.pc) = .add 15) ∧
    (let s : State := { small .T0 0 with mem := [(15, 0x3F)] }; decodeByte (s.mem.read s.pc) = .sub 15) := by decide

theorem witness_OutHltAndNoOpCycleEndState :
    (small .T0 0).AtBoundary ∧
    (let s : State := { small .T0 0 with mem := [(15, 0xE7)] }; s.mem.read s.pc = 0xE#4 ++ 0x7#4) ∧
    (let s : State := { small .T0 0 with mem := [(15, 0xF3)] }; s.mem.read s.pc = 0xF#4 ++ 0x3#4) ∧
    (let s : State := { small .T0 0 with mem := [(15, 0xDF)] }; s.mem.read s.pc = 0xD#4 ++ 0xF#4) ∧
    (let s : State := { small .T0 0 with mem := [] }; s.mem.read s.pc = 0x0#4 ++ 0x0#4) := by decide

theorem witness_CycleTakesTheTabledTStates : (small .T0 0).AtBoundary ∧ (small .T6 0).AtBoundary := by decide

theorem witness_StepAlwaysAnswersANextState : State.reset.Coherent := by decide

theorem witness_ResetAndRunAgainGivesTheSame :
    (after (runSteps 1 (State.construct (Vector.replicate 16 0xE0)))).isSome = true := by decide

/-- A coherent state after T5 of an ADD. -/
def afterAddT5 : State :=
  { pc := 1, mar := 5, acc := 3, ir := 0x25, tmp := 4, out := 0, sig := .asserting [.Lb], phase := .T5,
    mem := [(0, 0x25), (5, 4)] }

/-- Two coherent states: the reset state, and one in the middle of an ADD. -/
theorem witness_EveryStepKeepsCoherence :
    (State.reset.Coherent ∧ (after (step State.reset)).isSome = true) ∧
    (afterAddT5.Coherent ∧ (after (step afterAddT5)).isSome = true) :=
  ⟨⟨by decide, by decide⟩, by decide, by decide⟩

theorem witness_EveryDriverMoveKeepsCoherence :
    State.reset.Coherent ∧ (after (drive (.load (Vector.replicate 16 0x25)) State.reset)).isSome = true := by decide

theorem witness_CoherentRunsAreSafe : State.reset.Coherent ∧ (after (runSteps 1 State.reset)).isSome = true := by decide

end Sys2Proof.Tests
end

section
/-! The registers, the phase and the Halted engine: what a register write changes, how a T-state moves the phase, and what the
driver's moves answer on a Halted engine; with the statements of spec/10_state.md that rest on them. -/

namespace Sys2Proof.Machine

/-! ## A register after a write -/

/-- R13: the register written holds the value masked to its width. -/
@[simp] theorem State.getReg_setReg_same (s : State) (r : Reg) (v : Nat) :
    (s.setReg r v).getReg r = v % 2 ^ r.width := by
  cases r <;> exact BitVec.toNat_ofNat v _

/-- Every register but the one written keeps its value. -/
theorem State.getReg_setReg_of_ne (s : State) {q r : Reg} (hqr : q ≠ r) (v : Nat) :
    (s.setReg r v).getReg q = s.getReg q := by
  cases r <;> cases q
  case pc.pc | mar.mar | acc.acc | ir.ir | tmp.tmp | out.out => exact absurd rfl hqr
  all_goals rfl

/-- Settles O1, with one rule for the register written and one for every other. -/
theorem registerWriteIsMaskedToWidth : Obligations.RegisterWriteIsMaskedToWidth := by
  unfold Obligations.RegisterWriteIsMaskedToWidth
  intro s r v
  exact ⟨s.getReg_setReg_same r v, fun q hqr => s.getReg_setReg_of_ne hqr v,
    s.setReg_sig r v, s.setReg_phase r v, s.setReg_mem r v⟩

/-! ## How a T-state moves the phase -/

/-- Where an instruction answers a next state, the phase moves as R59 tables it. -/
theorem exec_next_phase {i : Instr} {s t : State} (h : exec i s = .next t) : t.phase = phaseAfter s.phase i := by
  cases i with
  | lda a => obtain ⟨hp, rfl⟩ | ⟨hp, rfl⟩ | ⟨hp, rfl⟩ | ⟨hp, rfl⟩ := exec_lda_next h <;> rw [hp] <;> rfl
  | add a => obtain ⟨hp, rfl⟩ | ⟨hp, rfl⟩ | ⟨hp, rfl⟩ | ⟨hp, rfl⟩ := exec_add_next h <;> rw [hp] <;> rfl
  | sub a => obtain ⟨hp, rfl⟩ | ⟨hp, rfl⟩ | ⟨hp, rfl⟩ | ⟨hp, rfl⟩ := exec_sub_next h <;> rw [hp] <;> rfl
  | out x => obtain ⟨hp, rfl⟩ | ⟨hp, rfl⟩ | ⟨hp, rfl⟩ | ⟨hp, rfl⟩ := exec_out_next h <;> rw [hp] <;> rfl
  | hlt x => obtain ⟨hp, rfl⟩ | ⟨hp, rfl⟩ := exec_hlt_next h <;> rw [hp] <;> rfl
  | _ x => obtain ⟨hp, rfl⟩ | ⟨hp, rfl⟩ | ⟨hp, rfl⟩ | ⟨hp, rfl⟩ := noOpCycle_next h <;> rw [hp] <;> rfl

/-- R59: a step moves the phase as tabled, by the instruction in IR before the step. -/
theorem step_next_phase {s t : State} (h : step s = .next t) : t.phase = phaseAfter s.phase (decodeByte s.ir) := by
  obtain ⟨hp | hp, rfl⟩ | ⟨hp, rfl⟩ | ⟨hp, rfl⟩ | ⟨-, hexec⟩ | ⟨hp, rfl⟩ := step_next h
  case inr.inr.inr.inl => exact exec_next_phase hexec
  all_goals rw [hp]; rfl

/-- The table of R59 leads to Halted from T3 with a decoded HLT, and from Halted, and from nowhere else. -/
theorem phaseAfter_eq_halted_iff {p : Phase} {i : Instr} :
    phaseAfter p i = .Halted ↔ p = .Halted ∨ (p = .T3 ∧ i.isHlt = true) := by
  cases p
  case T3 => cases hi : i.isHlt <;> simp [phaseAfter, hi]
  all_goals simp [phaseAfter]

/-! ## The driver's moves on a Halted engine -/

/-- R73: a T-state of a Halted engine changes nothing. -/
theorem step_of_halted {s : State} (hp : s.phase = .Halted) : step s = .next s := by
  simp [step, hp]

/-- R74: `fetch_cycle` of a Halted engine changes nothing and reports terminal. -/
theorem fetchCycle_of_halted {s : State} (hp : s.phase = .Halted) :
    fetchCycle s = .next { state := s, terminal := true } := by
  simp [fetchCycle, hp]

/-- R75: `execute_cycle` of a Halted engine changes nothing and reports terminal. -/
theorem executeCycle_of_halted {s : State} (hp : s.phase = .Halted) :
    executeCycle s = .next { state := s, terminal := true } := by
  simp [executeCycle, hp]

/-- R76: `run_to_halt` of a Halted engine returns at once, halted after 0 cycles, whatever the cap. -/
theorem runToHalt_of_halted {s : State} (hp : s.phase = .Halted) (n : Nat) :
    runToHalt n s = .next { state := s, halted := true, cycles := 0 } := by
  simp [runToHalt, hp]

/-- R38: there is no load on a Halted engine. -/
theorem load_of_halted {s : State} (hp : s.phase = .Halted) (img : Image) : load img s = .refused .loadOffIdle := by
  simp [load, hp]

/-- Reset apart, a move of the driver that answers a state on a Halted engine answers the same state. -/
theorem drive_next_of_halted {op : DriverOp} {s t : State} (hp : s.phase = .Halted) (hop : op ≠ .reset)
    (h : drive op s = .next t) : t = s := by
  cases op with
  | step => simpa [drive, step_of_halted hp, eq_comm] using h
  | fetchCycle => simpa [drive, fetchCycle_of_halted hp, eq_comm] using h
  | executeCycle => simpa [drive, executeCycle_of_halted hp, eq_comm] using h
  | runToHalt n => simpa [drive, runToHalt_of_halted hp, eq_comm] using h
  | reset => exact absurd rfl hop
  | load img => simp [drive, load_of_halted hp] at h

/-- Settles O6: the first clause by the table of the phases, the others by what each move answers on a Halted engine. -/
theorem haltedIsEnteredByHltAndLeftByResetAlone : Obligations.HaltedIsEnteredByHltAndLeftByResetAlone := by
  unfold Obligations.HaltedIsEnteredByHltAndLeftByResetAlone
  refine ⟨fun s t hs h ht => ?_, fun s => step_of_halted, fun op s t => drive_next_of_halted⟩
  have hafter : phaseAfter s.phase (decodeByte s.ir) = .Halted := (step_next_phase h).symm.trans ht
  exact (phaseAfter_eq_halted_iff.mp hafter).resolve_left hs

end Sys2Proof.Machine
end

section
/-! The opcode map: what the byte of an opcode nibble and an operand nibble decodes to; with the statement of
spec/30_encoding.md R52 that rests on it. -/

namespace Sys2Proof.Machine

/-- R50, R51: the byte of two nibbles is decoded by its high nibble, with its low nibble as the operand. -/
theorem decodeByte_append (op x : Nibble) : decodeByte (op ++ x) = instrOfFields op x := by
  rw [decodeByte, opcodeField_append, operandField_append]

/-- Settles O16: the byte's fields are the two nibbles, and at each opcode the decoder's row is the tabled one. -/
theorem opcodeMapIsTheTabledOne : Obligations.OpcodeMapIsTheTabledOne := by
  unfold Obligations.OpcodeMapIsTheTabledOne
  intro x
  simp only [decodeByte_append]
  and_intros <;> rfl

end Sys2Proof.Machine
end

section
/-! The T-states as steps: the three of the fetch as whole next states, what an execute T-state asserts and keeps of IR, and
what an observation shows; with the statements of spec/40_sequencer.md that rest on them. -/

namespace Sys2Proof.Machine

/-! ## The fetch T-states -/

/-- R65, R72: from T0 or T6 the step is T1. -/
theorem step_of_atBoundary {s : State} (hp : s.AtBoundary) :
    step s = .next { s with mar := s.pc, sig := .asserting [.Ep, .Lm], phase := .T1 } := by
  rw [← fetchT1_eq]
  obtain hp | hp := hp <;> simp [step, hp]

/-- R66: from T1 the step is T2. -/
theorem step_of_T1 {s : State} (hp : s.phase = .T1) :
    step s =
      .next { s with ir := s.mem.read s.mar, pc := s.pc + 1, sig := .asserting [.Ce, .Li], phase := .T2 } := by
  rw [← fetchT2_eq]
  simp [step, hp]

/-- R67: from T2 the step is T3. -/
theorem step_of_T2 {s : State} (hp : s.phase = .T2) : step s = .next { s with sig := .none, phase := .T3 } := by
  rw [← fetchT3_eq]
  simp [step, hp]

/-- Settles O24, one fetch T-state at a time. -/
theorem fetchTStates : Obligations.FetchTStates := by
  unfold Obligations.FetchTStates
  exact fun s => ⟨step_of_atBoundary, step_of_T1, step_of_T2⟩

/-! ## The execute T-states -/

/-- R69: no execute T-state writes IR, so each of them decodes the same instruction. -/
theorem exec_next_ir {i : Instr} {s t : State} (h : exec i s = .next t) : t.ir = s.ir := by
  cases i with
  | lda a => obtain ⟨-, rfl⟩ | ⟨-, rfl⟩ | ⟨-, rfl⟩ | ⟨-, rfl⟩ := exec_lda_next h <;> rfl
  | add a => obtain ⟨-, rfl⟩ | ⟨-, rfl⟩ | ⟨-, rfl⟩ | ⟨-, rfl⟩ := exec_add_next h <;> rfl
  | sub a => obtain ⟨-, rfl⟩ | ⟨-, rfl⟩ | ⟨-, rfl⟩ | ⟨-, rfl⟩ := exec_sub_next h <;> rfl
  | out x => obtain ⟨-, rfl⟩ | ⟨-, rfl⟩ | ⟨-, rfl⟩ | ⟨-, rfl⟩ := exec_out_next h <;> rfl
  | hlt x => obtain ⟨-, rfl⟩ | ⟨-, rfl⟩ := exec_hlt_next h <;> rfl
  | _ x => obtain ⟨-, rfl⟩ | ⟨-, rfl⟩ | ⟨-, rfl⟩ | ⟨-, rfl⟩ := noOpCycle_next h <;> rfl

/-- R62: where the engine is not Halted, an execute T-state asserts its entry of the signal table. -/
theorem exec_next_sig {i : Instr} {s t : State} (hs : s.phase ≠ .Halted) (h : exec i s = .next t) :
    t.sig = signalTable t.phase i := by
  cases i with
  | lda a =>
    obtain ⟨-, rfl⟩ | ⟨-, rfl⟩ | ⟨-, rfl⟩ | ⟨hp, -⟩ := exec_lda_next h
    exacts [rfl, rfl, rfl, absurd hp hs]
  | add a =>
    obtain ⟨-, rfl⟩ | ⟨-, rfl⟩ | ⟨-, rfl⟩ | ⟨hp, -⟩ := exec_add_next h
    exacts [rfl, rfl, rfl, absurd hp hs]
  | sub a =>
    obtain ⟨-, rfl⟩ | ⟨-, rfl⟩ | ⟨-, rfl⟩ | ⟨hp, -⟩ := exec_sub_next h
    exacts [rfl, rfl, rfl, absurd hp hs]
  | out x =>
    obtain ⟨-, rfl⟩ | ⟨-, rfl⟩ | ⟨-, rfl⟩ | ⟨hp, -⟩ := exec_out_next h
    exacts [rfl, rfl, rfl, absurd hp hs]
  | hlt x =>
    obtain ⟨-, rfl⟩ | ⟨hp, -⟩ := exec_hlt_next h
    exacts [rfl, absurd hp hs]
  | _ x =>
    obtain ⟨-, rfl⟩ | ⟨-, rfl⟩ | ⟨-, rfl⟩ | ⟨hp, -⟩ := noOpCycle_next h
    exacts [rfl, rfl, rfl, absurd hp hs]

/-- R59: a Halted engine is in none of T4, T5 and T6. -/
theorem State.not_executing_of_halted {s : State} (hp : s.phase = .Halted) : ¬s.Executing := by
  simp [State.Executing, hp]

/-- R59: HLT's one T-state leads to Halted, so an instruction that answers T4, T5 or T6 is not HLT. -/
theorem isHlt_eq_false_of_exec_executing {i : Instr} {s t : State} (h : exec i s = .next t) (ht : t.Executing) :
    i.isHlt = false := by
  cases i with
  | hlt x =>
    have hp : t.phase = .Halted := by obtain ⟨-, rfl⟩ | ⟨hp, rfl⟩ := exec_hlt_next h; exacts [rfl, hp]
    exact absurd ht (State.not_executing_of_halted hp)
  | _ => rfl

/-- A step that leads to T4, T5 or T6 is an execute T-state of the instruction in IR. -/
theorem exec_of_step_executing {s t : State} (h : step s = .next t) (ht : t.Executing) :
    exec (decodeByte s.ir) s = .next t := by
  obtain ⟨-, rfl⟩ | ⟨-, rfl⟩ | ⟨-, rfl⟩ | ⟨-, hexec⟩ | ⟨hp, rfl⟩ := step_next h
  · simp [State.Executing, fetchT1] at ht
  · simp [State.Executing, fetchT2] at ht
  · simp [State.Executing, fetchT3] at ht
  · exact hexec
  · exact absurd ht (State.not_executing_of_halted hp)

/-- Settles O21: the table is `step_next_phase`; only an execute T-state leads to T4, T5 or T6, and it keeps IR. -/
theorem phaseMovesAsTabled : Obligations.PhaseMovesAsTabled := by
  unfold Obligations.PhaseMovesAsTabled
  refine fun s t h => ⟨step_next_phase h, fun ht => ?_⟩
  have hexec := exec_of_step_executing h ht
  rw [exec_next_ir hexec]
  exact isHlt_eq_false_of_exec_executing hexec ht

/-- Settles O22: T1, T2 and T3 assert one set whatever IR holds; T4, T5 and T6 are `exec_next_sig`, with IR kept. -/
theorem assertedSetIsTheTabledOne : Obligations.AssertedSetIsTheTabledOne := by
  unfold Obligations.AssertedSetIsTheTabledOne
  intro s t hs h
  obtain ⟨-, rfl⟩ | ⟨-, rfl⟩ | ⟨-, rfl⟩ | ⟨-, hexec⟩ | ⟨hp, -⟩ := step_next h
  · rfl
  · rfl
  · rfl
  · rw [exec_next_ir hexec]
    exact exec_next_sig hs hexec
  · exact absurd hp hs

/-! ## The observation -/

/-- Settles O35: an observation copies its items from the state, and no item of it reads memory. -/
theorem observationShowsAllButMemory : Obligations.ObservationShowsAllButMemory := by
  unfold Obligations.ObservationShowsAllButMemory
  exact ⟨fun s => ⟨rfl, rfl, rfl, rfl⟩, fun s m => rfl⟩

end Sys2Proof.Machine
end

section
/-! The execute T-states by phase: which one the dispatch takes, and the commit of one register write as a record; with the
T-states of LDA as whole next states, the statement of spec/41_load.md R84. -/

namespace Sys2Proof.Machine

/-! ## The dispatch at each phase -/

/-- R72: from T3 the next execute T-state is T4. -/
theorem executeState_of_T3 {s : State} (hp : s.phase = .T3) (t4 t5 t6 : Result) : executeState s t4 t5 t6 = t4 := by
  rw [executeState, hp]

/-- R72: from T4 the next execute T-state is T5. -/
theorem executeState_of_T4 {s : State} (hp : s.phase = .T4) (t4 t5 t6 : Result) : executeState s t4 t5 t6 = t5 := by
  rw [executeState, hp]

/-- R72: from T5 the next execute T-state is T6. -/
theorem executeState_of_T5 {s : State} (hp : s.phase = .T5) (t4 t5 t6 : Result) : executeState s t4 t5 t6 = t6 := by
  rw [executeState, hp]

/-! ## A commit of one register write -/

/-- A 4-bit value written to MAR is stored whole. -/
theorem State.commit_mar (s : State) (p : Phase) (g : List Signal) (a : Addr) :
    s.commit p g [(.mar, a.toNat)] = { s with mar := a, sig := .asserting g, phase := p } := by
  simp [State.commit, State.setReg]

/-- An 8-bit value written to ACC is stored whole. -/
theorem State.commit_acc (s : State) (p : Phase) (g : List Signal) (b : Byte) :
    s.commit p g [(.acc, b.toNat)] = { s with acc := b, sig := .asserting g, phase := p } := by
  simp [State.commit, State.setReg]

/-! ## LDA -/

/-- R84: T4 of LDA loads MAR from the operand. -/
theorem exec_lda_of_T3 {s : State} (hp : s.phase = .T3) (a : Nibble) :
    exec (.lda a) s = .next { s with mar := a, sig := .asserting [.Ei, .Lm], phase := .T4 } := by
  rw [← State.commit_mar]
  exact executeState_of_T3 hp ..

/-- R84: T5 of LDA loads ACC from the cell at MAR. -/
theorem exec_lda_of_T4 {s : State} (hp : s.phase = .T4) (a : Nibble) :
    exec (.lda a) s = .next { s with acc := s.mem.read s.mar, sig := .asserting [.La], phase := .T5 } := by
  rw [← State.commit_acc]
  exact executeState_of_T4 hp ..

/-- R84: T6 of LDA writes no register. -/
theorem exec_lda_of_T5 {s : State} (hp : s.phase = .T5) (a : Nibble) :
    exec (.lda a) s = .next { s with sig := .none, phase := .T6 } := by
  rw [← Signals.asserting_nil, ← State.commit_none]
  exact executeState_of_T5 hp ..

/-- Settles O38: the byte decodes by its opcode nibble, and each T-state is the dispatch's choice at its phase. -/
theorem ldaTStates : Obligations.LdaTStates := by
  unfold Obligations.LdaTStates
  intro a s
  have hbyte : decodeByte (0b0001#4 ++ a) = .lda a := by rw [decodeByte_append]; rfl
  exact ⟨hbyte, fun hp => exec_lda_of_T3 hp a, fun hp => exec_lda_of_T4 hp a, fun hp => exec_lda_of_T5 hp a⟩

end Sys2Proof.Machine
end

section
/-! The arithmetic instructions: the ALU on exact integers, and the T-states of ADD and SUB as whole next states; with the
statements of spec/42_arith.md R85, R88 and R89. -/

namespace Sys2Proof.Machine

/-! ## The ALU -/

/-- The byte of an exact integer is its remainder mod 256, for negative integers too. -/
theorem toNat_byteOfInt (z : Int) : ((BitVec.ofInt 8 z).toNat : Int) = z % 256 := by
  rw [BitVec.toNat_ofInt]
  exact Int.toNat_of_nonneg (Int.emod_nonneg z (by decide))

/-- Settles O39: the ALU's result is the byte of the exact sum or difference. -/
theorem aluIsModulo256 : Obligations.AluIsModulo256 := by
  unfold Obligations.AluIsModulo256
  exact fun acc tmp => ⟨toNat_byteOfInt (acc.toNat + tmp.toNat), toNat_byteOfInt (acc.toNat - tmp.toNat)⟩

/-! ## A commit to TMP -/

/-- An 8-bit value written to TMP is stored whole. -/
theorem State.commit_tmp (s : State) (p : Phase) (g : List Signal) (b : Byte) :
    s.commit p g [(.tmp, b.toNat)] = { s with tmp := b, sig := .asserting g, phase := p } := by
  simp [State.commit, State.setReg]

/-! ## ADD -/

/-- R88: T4 of ADD loads MAR from the operand. -/
theorem exec_add_of_T3 {s : State} (hp : s.phase = .T3) (a : Nibble) :
    exec (.add a) s = .next { s with mar := a, sig := .asserting [.Ei, .Lm], phase := .T4 } := by
  rw [← State.commit_mar]
  exact executeState_of_T3 hp ..

/-- R88: T5 of ADD loads TMP from the cell at MAR. -/
theorem exec_add_of_T4 {s : State} (hp : s.phase = .T4) (a : Nibble) :
    exec (.add a) s = .next { s with tmp := s.mem.read s.mar, sig := .asserting [.Lb], phase := .T5 } := by
  rw [← State.commit_tmp]
  exact executeState_of_T4 hp ..

/-- R88: T6 of ADD loads ACC with the ALU's sum. -/
theorem exec_add_of_T5 {s : State} (hp : s.phase = .T5) (a : Nibble) :
    exec (.add a) s = .next { s with acc := s.acc + s.tmp, sig := .asserting [.Ea, .Eu, .La], phase := .T6 } := by
  rw [← alu_add, ← State.commit_acc]
  exact executeState_of_T5 hp ..

/-- Settles O40: the byte decodes by its opcode nibble, and each T-state is the dispatch's choice at its phase. -/
theorem addTStates : Obligations.AddTStates := by
  unfold Obligations.AddTStates
  intro a s
  have hbyte : decodeByte (0b0010#4 ++ a) = .add a := by rw [decodeByte_append]; rfl
  exact ⟨hbyte, fun hp => exec_add_of_T3 hp a, fun hp => exec_add_of_T4 hp a, fun hp => exec_add_of_T5 hp a⟩

/-! ## SUB -/

/-- R88, R89: SUB and ADD differ at T6 alone, the T-state after T5. -/
theorem exec_sub_eq_exec_add {s : State} (hp : s.phase ≠ .T5) (a : Nibble) : exec (.sub a) s = exec (.add a) s := by
  simp only [exec, execSub, execAdd]
  cases h : s.phase
  case T5 => exact absurd h hp
  all_goals simp only [executeState, h]

/-- R89: T4 of SUB loads MAR from the operand. -/
theorem exec_sub_of_T3 {s : State} (hp : s.phase = .T3) (a : Nibble) :
    exec (.sub a) s = .next { s with mar := a, sig := .asserting [.Ei, .Lm], phase := .T4 } :=
  (exec_sub_eq_exec_add (by simp [hp]) a).trans (exec_add_of_T3 hp a)

/-- R89: T5 of SUB loads TMP from the cell at MAR. -/
theorem exec_sub_of_T4 {s : State} (hp : s.phase = .T4) (a : Nibble) :
    exec (.sub a) s = .next { s with tmp := s.mem.read s.mar, sig := .asserting [.Lb], phase := .T5 } :=
  (exec_sub_eq_exec_add (by simp [hp]) a).trans (exec_add_of_T4 hp a)

/-- R89: T6 of SUB loads ACC with the ALU's difference, ACC minus TMP. -/
theorem exec_sub_of_T5 {s : State} (hp : s.phase = .T5) (a : Nibble) :
    exec (.sub a) s = .next { s with acc := s.acc - s.tmp, sig := .asserting [.Ea, .Eu, .La, .Su], phase := .T6 } := by
  rw [← alu_sub, ← State.commit_acc]
  exact executeState_of_T5 hp ..

/-- Settles O41: the byte decodes by its opcode nibble, and each T-state is the dispatch's choice at its phase. -/
theorem subTStates : Obligations.SubTStates := by
  unfold Obligations.SubTStates
  intro a s
  have hbyte : decodeByte (0b0011#4 ++ a) = .sub a := by rw [decodeByte_append]; rfl
  exact ⟨hbyte, fun hp => exec_sub_of_T3 hp a, fun hp => exec_sub_of_T4 hp a, fun hp => exec_sub_of_T5 hp a⟩

end Sys2Proof.Machine
end

section
/-! OUT: its T-states as whole next states, with the commit of no signal and no write; the statement of spec/43_output.md R90. -/

namespace Sys2Proof.Machine

/-! ## A commit to OUT, and a commit of nothing -/

/-- An 8-bit value written to OUT is stored whole. -/
theorem State.commit_out (s : State) (p : Phase) (g : List Signal) (b : Byte) :
    s.commit p g [(.out, b.toNat)] = { s with out := b, sig := .asserting g, phase := p } := by
  simp [State.commit, State.setReg]

/-- A T-state of the empty set that writes no register clears the matrix and moves the phase. -/
theorem State.commit_idle (s : State) (p : Phase) : s.commit p [] [] = { s with sig := .none, phase := p } := by
  rw [State.commit_none, Signals.asserting_nil]

/-! ## OUT -/

/-- R90: T4 of OUT loads OUT from ACC. -/
theorem exec_out_of_T3 {s : State} (hp : s.phase = .T3) (x : Nibble) :
    exec (.out x) s = .next { s with out := s.acc, sig := .asserting [.Ea, .Lo], phase := .T4 } := by
  rw [← State.commit_out]
  exact executeState_of_T3 hp ..

/-- R90: T5 of OUT writes no register. -/
theorem exec_out_of_T4 {s : State} (hp : s.phase = .T4) (x : Nibble) :
    exec (.out x) s = .next { s with sig := .none, phase := .T5 } := by
  rw [← State.commit_idle]
  exact executeState_of_T4 hp ..

/-- R90: T6 of OUT writes no register. -/
theorem exec_out_of_T5 {s : State} (hp : s.phase = .T5) (x : Nibble) :
    exec (.out x) s = .next { s with sig := .none, phase := .T6 } := by
  rw [← State.commit_idle]
  exact executeState_of_T5 hp ..

/-- Settles O42: the byte decodes by its opcode nibble, and each T-state is the dispatch's choice at its phase. -/
theorem outTStates : Obligations.OutTStates := by
  unfold Obligations.OutTStates
  intro x s
  have hbyte : decodeByte (0b1110#4 ++ x) = .out x := by rw [decodeByte_append]; rfl
  exact ⟨hbyte, fun hp => exec_out_of_T3 hp x, fun hp => exec_out_of_T4 hp x, fun hp => exec_out_of_T5 hp x⟩

end Sys2Proof.Machine
end

section
/-! HLT and the unrecognized opcodes: their T-states as whole next states, and the driver's step of HLT; with the statements of
spec/44_control.md R91 and R92. -/

namespace Sys2Proof.Machine

/-! ## HLT -/

/-- R91: T4 of HLT writes no register and enters Halted. -/
theorem exec_hlt_of_T3 {s : State} (hp : s.phase = .T3) (x : Nibble) :
    exec (.hlt x) s = .next { s with sig := .none, phase := .Halted } := by
  rw [← State.commit_idle]
  exact executeState_of_T3 hp ..

/-- R69, R72: from T3, T4 and T5 the step is the next execute T-state of the instruction in IR. -/
theorem step_eq_exec {s : State} (hp : s.phase = .T3 ∨ s.phase = .T4 ∨ s.phase = .T5) :
    step s = exec (decodeByte s.ir) s := by
  obtain hp | hp | hp := hp <;> simp only [step, hp]

/-- R72: the driver's step returns the state after the T-state, and terminal as that state's phase tells. -/
theorem driverStep_of_step {s t : State} (h : step s = .next t) :
    driverStep s = .next { state := t, terminal := t.terminal } := by
  rw [driverStep, h, andThen_of_next]

/-- Settles O43: the byte decodes by its opcode nibble; the driver's step is HLT's T4, and terminal is read off the phase. -/
theorem hltTState : Obligations.HltTState := by
  unfold Obligations.HltTState
  intro x s
  have hbyte : decodeByte (0b1111#4 ++ x) = .hlt x := by rw [decodeByte_append]; rfl
  refine ⟨hbyte, fun hp => exec_hlt_of_T3 hp x, fun hp hir => ?_⟩
  have hstep : step s = .next { s with sig := .none, phase := .Halted } := by
    rw [step_eq_exec (.inl hp), hir, exec_hlt_of_T3 hp]
  exact driverStep_of_step hstep

/-! ## The unrecognized opcodes -/

/-- R92: T4 of a no-op cycle writes no register. -/
theorem noOpCycle_of_T3 {s : State} (hp : s.phase = .T3) :
    noOpCycle s = .next { s with sig := .none, phase := .T4 } := by
  rw [← State.commit_idle]
  exact executeState_of_T3 hp ..

/-- R92: T5 of a no-op cycle writes no register. -/
theorem noOpCycle_of_T4 {s : State} (hp : s.phase = .T4) :
    noOpCycle s = .next { s with sig := .none, phase := .T5 } := by
  rw [← State.commit_idle]
  exact executeState_of_T4 hp ..

/-- R92: T6 of a no-op cycle writes no register. -/
theorem noOpCycle_of_T5 {s : State} (hp : s.phase = .T5) :
    noOpCycle s = .next { s with sig := .none, phase := .T6 } := by
  rw [← State.commit_idle]
  exact executeState_of_T5 hp ..

/-- The eleven rows of the opcode table with no assigned opcode (R54), at one operand nibble. -/
def unrecognizedRows (x : Nibble) : List Instr :=
  [.unrec0 x, .unrec4 x, .unrec5 x, .unrec6 x, .unrec7 x, .unrec8 x, .unrec9 x, .unrecA x, .unrecB x, .unrecC x, .unrecD x]

/-- R54: the unrecognized rows are those of opcode 0x0 and of 0x4 to 0xD. -/
theorem mem_unrecognizedRows_iff (i : Instr) (x : Nibble) :
    i ∈ unrecognizedRows x ↔ (i.opcode = 0x0 ∨ (0x4 ≤ i.opcode ∧ i.opcode ≤ 0xD)) ∧ i.operand = x := by
  cases i <;> simp [unrecognizedRows, Instr.opcode, Instr.operand]

/-- R92: the T-states of every unrecognized row are those of the no-op cycle. -/
theorem exec_of_mem_unrecognizedRows {i : Instr} {x : Nibble} (hi : i ∈ unrecognizedRows x) (s : State) :
    exec i s = noOpCycle s := by
  obtain ⟨hop, -⟩ := (mem_unrecognizedRows_iff i x).mp hi
  cases i with
  | lda | add | sub | out | hlt => simp [Instr.opcode] at hop
  | _ => rfl

/-- Settles O44: the byte's row has the byte's two nibbles, and each of the eleven rows runs the no-op cycle. -/
theorem unrecognizedTStates : Obligations.UnrecognizedTStates := by
  unfold Obligations.UnrecognizedTStates
  refine ⟨fun op x hop => (mem_unrecognizedRows_iff _ x).mpr ?_, fun x s i hi => ?_⟩
  · rw [decodeByte_opcode, decodeByte_operand, opcodeField_append, operandField_append]
    exact ⟨hop, rfl⟩
  · rw [exec_of_mem_unrecognizedRows hi]
    exact ⟨noOpCycle_of_T3, noOpCycle_of_T4, noOpCycle_of_T5⟩

end Sys2Proof.Machine
end

section
/-! The engine at its start: the registers and the matrix after reset, construction as the state a reset keeps, and the fetch
cycle as one whole next state; with the statement of spec/70_reset_and_hazards.md R106 that rests on them. -/

namespace Sys2Proof.Machine

/-! ## Reset and construction -/

/-- R24: no signal of the empty matrix is asserted. -/
@[simp] theorem Signals.get_none (x : Signal) : Signals.none.get x = false := by cases x <;> rfl

/-- R107: after reset every register is 0. -/
@[simp] theorem State.getReg_resetEngine (s : State) (r : Reg) : s.resetEngine.getReg r = 0 := by cases r <;> rfl

/-- R106, R107: construction is the state that a reset of it gives again, so what holds after any reset holds after it. -/
theorem State.resetEngine_construct (img : Image) : (State.construct img).resetEngine = State.construct img := rfl

/-- R106: every cell of the constructed engine is its byte of the image. -/
theorem State.read_construct (img : Image) (a : Addr) : (State.construct img).mem.read a = img[a.toFin] :=
  Memory.read_ofImage img a

/-! ## The first fetch cycle -/

/-- R74: from a cycle boundary `fetch_cycle` performs T1, T2 and T3, and the engine is not terminal after them. -/
theorem fetchCycle_of_atBoundary {s : State} (hp : s.AtBoundary) :
    fetchCycle s = .next
      { state := { s with pc := s.pc + 1, mar := s.pc, ir := s.mem.read s.pc, sig := .none, phase := .T3 }
        terminal := false } := by
  have hsteps : fetchCycle s = andThen (step s) fun s₁ => andThen (step s₁) driverStep := by
    obtain hp | hp := hp <;> simp only [fetchCycle, hp]
  rw [hsteps, step_of_atBoundary hp, andThen_of_next, step_of_T1 rfl, andThen_of_next, driverStep_of_step (step_of_T2 rfl)]
  rfl

/-- R107, R74: the first fetch cycle after reset fetches the byte of cell 0. -/
theorem fetchCycle_resetEngine_ir (s : State) :
    ∃ r, fetchCycle s.resetEngine = .next r ∧ r.state.ir = s.mem.read 0 :=
  ⟨_, fetchCycle_of_atBoundary (.inl s.resetEngine_phase), rfl⟩

/-- R34, R107: the state after reset, and the byte its first fetch cycle fetches. -/
theorem State.resetEngine_values (s : State) :
    (∀ r, s.resetEngine.getReg r = 0) ∧ (∀ x, s.resetEngine.sig.get x = false) ∧
    s.resetEngine.phase = .T0 ∧ s.resetEngine.mem = s.mem ∧
    ∃ r, fetchCycle s.resetEngine = .next r ∧ r.state.ir = s.mem.read 0 :=
  ⟨s.getReg_resetEngine, Signals.get_none, s.resetEngine_phase, s.resetEngine_mem, fetchCycle_resetEngine_ir s⟩

/-- Settles O9: what holds after every reset holds of construction, where the cells are moreover the bytes of the image. -/
theorem valuesAfterConstructionAndAfterReset : Obligations.ValuesAfterConstructionAndAfterReset := by
  unfold Obligations.ValuesAfterConstructionAndAfterReset
  refine ⟨fun img => ?_, State.resetEngine_values⟩
  obtain ⟨hreg, hsig, hphase, -, r, hfetch, hir⟩ := State.resetEngine_values (State.construct img)
  rw [State.resetEngine_construct] at hreg hsig hphase hfetch
  exact ⟨hreg, hsig, hphase, State.read_construct img, r, hfetch, hir.trans (State.read_construct img 0)⟩

end Sys2Proof.Machine
end

section
/-! Decoding and encoding: the round trip of an instruction and of a byte, the bytes of the written items, and the image of a
program text; with the statements of spec/30_encoding.md that rest on them. -/

namespace Sys2Proof.Machine

/-! ## The round trip -/

/-- R49, R52: the byte of an instruction decodes to it, operand and all. -/
@[simp] theorem decodeByte_encodeByte (i : Instr) : decodeByte (encodeByte i) = i :=
  (decodeByte_eq_iff _ i).mpr (Laws.EncodeFields.fields_of_encodeByte i)

/-- R49, R51: every byte is the encoding of what it decodes to. -/
@[simp] theorem encodeByte_decodeByte (b : Byte) : encodeByte (decodeByte b) = b := by
  rw [encodeByte_eq_append, decodeByte_opcode, decodeByte_operand, append_fields]

/-- Settles O15: both ways, an instruction and a byte are the same two nibbles; `decode` takes one byte and leaves the rest. -/
theorem decodingAndEncodingAgree : Obligations.DecodingAndEncodingAgree := by
  unfold Obligations.DecodingAndEncodingAgree
  refine ⟨fun i rest => ?_, encodeByte_decodeByte⟩
  calc decode (encode i ++ rest) = .ok (decodeByte (encodeByte i), rest) := rfl
    _ = .ok (i, rest) := by rw [decodeByte_encodeByte]

/-! ## Bytes and their decoded view -/

/-- Settles O17, by evaluating the decoder at the nine bytes. -/
theorem writtenOutBytesDecode : Obligations.WrittenOutBytesDecode := by
  unfold Obligations.WrittenOutBytesDecode
  decide

/-- Settles O36: at each row that the byte can decode to, the byte's opcode is the row's, and the view shows it. -/
theorem decodedViewNamesMnemonicAndOperand : Obligations.DecodedViewNamesMnemonicAndOperand := by
  unfold Obligations.DecodedViewNamesMnemonicAndOperand
  intro op x
  have hrow := (decodeByte_eq_iff (op ++ x) _).mp rfl
  rw [opcodeField_append, operandField_append] at hrow
  obtain ⟨hop, hx⟩ := hrow
  rw [decodedView]
  cases hi : decodeByte (op ++ x) <;> rw [hi] at hop hx <;> subst hop hx <;> rfl

/-- R50: a byte written as sixteen times its opcode plus its operand is the two nibbles side by side. -/
theorem byte_ofNat_eq_append (op : Nibble) {a : Nat} (ha : a < 16) :
    BitVec.ofNat 8 (16 * op.toNat + a) = op ++ BitVec.ofNat 4 a := by
  apply BitVec.eq_of_toNat_eq
  have hop := op.isLt
  have hor : op.toNat <<< 4 ||| a = 16 * op.toNat + a := by
    rw [← Nat.shiftLeft_add_eq_or_of_lt (by omega), Nat.shiftLeft_eq]
    omega
  rw [BitVec.toNat_append, BitVec.toNat_ofNat, BitVec.toNat_ofNat, Nat.mod_eq_of_lt ha, hor]
  omega

/-- Settles O20: an item in range has the byte of its opcode and its number, which the decoder's map then reads. -/
theorem notationNamesTheInstructions : Obligations.NotationNamesTheInstructions := by
  unfold Obligations.NotationNamesTheInstructions
  refine ⟨fun a ha => ?_, rfl, rfl, fun v hv => by simp [Item.encode, Item.wellFormed, hv]⟩
  have hwf : a < Config.memCells := ha
  have hlda : BitVec.ofNat 8 (0x10 + a) = 0x1#4 ++ BitVec.ofNat 4 a := byte_ofNat_eq_append 0x1 ha
  have hadd : BitVec.ofNat 8 (0x20 + a) = 0x2#4 ++ BitVec.ofNat 4 a := byte_ofNat_eq_append 0x2 ha
  have hsub : BitVec.ofNat 8 (0x30 + a) = 0x3#4 ++ BitVec.ofNat 4 a := byte_ofNat_eq_append 0x3 ha
  obtain ⟨-, hlda', hadd', hsub', -⟩ := opcodeMapIsTheTabledOne (BitVec.ofNat 4 a)
  refine ⟨?_, ?_, ?_, hlda ▸ hlda', hadd ▸ hadd', hsub ▸ hsub'⟩ <;> simp [Item.encode, Item.wellFormed, hwf]

/-! ## The image of a program text -/

/-- R95: a text is in range where its first line is, its item is, the line's cell has no other line, and the rest is. -/
theorem wellFormed_cons_iff (n : Nat) (it : Item) (rest : ProgramText) :
    ProgramText.wellFormed ((n, it) :: rest) = true ↔
      n < Config.memCells ∧ it.wellFormed = true ∧ (∀ it', (n, it') ∉ rest) ∧ ProgramText.wellFormed rest = true := by
  simp [ProgramText.wellFormed, and_assoc]

/-- An item in range has a byte. -/
theorem Item.encode_eq_some {it : Item} (h : it.wellFormed = true) : it.encode = some (it.encode.getD 0x00) := by
  simp [Item.encode, h]

/-- R56: a cell that no line names holds 0x00. -/
theorem programByte_of_not_mem {p : ProgramText} {n : Nat} (h : ∀ it, (n, it) ∉ p) : programByte p n = 0x00 := by
  induction p with
  | nil => rfl
  | cons line rest ih =>
    obtain ⟨k, it⟩ := line
    have hne : k ≠ n := fun hk => h it (hk ▸ List.mem_cons_self)
    rw [programByte, if_neg hne]
    exact ih fun it' hmem => h it' (List.mem_cons_of_mem _ hmem)

/-- R56: the cell of a line holds the byte of its item: no other line of a well-formed text names the cell. -/
theorem programByte_of_mem {p : ProgramText} (hp : ProgramText.wellFormed p = true) {n : Nat} {it : Item}
    (hmem : (n, it) ∈ p) : it.encode = some (programByte p n) := by
  induction p with
  | nil => cases hmem
  | cons line rest ih =>
    obtain ⟨k, it'⟩ := line
    obtain ⟨-, hit, honly, hrest⟩ := (wellFormed_cons_iff k it' rest).mp hp
    by_cases hk : k = n
    · subst hk
      obtain heq | hin := List.mem_cons.mp hmem
      · cases heq
        rw [programByte, if_pos rfl]
        exact Item.encode_eq_some hit
      · exact absurd hin (honly it)
    · obtain heq | hin := List.mem_cons.mp hmem
      · cases heq
        exact absurd rfl hk
      · rw [programByte, if_neg hk]
        exact ih hrest hin

/-- Settles O19: the image's bytes are `programByte` cell by cell, and that is the byte of the cell's one line, or 0x00. -/
theorem programTextBecomesItsImage : Obligations.ProgramTextBecomesItsImage := by
  unfold Obligations.ProgramTextBecomesItsImage
  refine ⟨fun p hp => by simp [assemble, hp], fun p hp => ⟨_, if_pos hp, fun n it hmem => ?_, fun n hno => ?_⟩⟩
  · simpa using programByte_of_mem hp hmem
  · simpa using programByte_of_not_mem hno

end Sys2Proof.Machine
end

section
/-! A T-state as one commit: the registers it writes are those of the table, and memory it keeps, through any run; with the
statements of spec/10_state.md R21 and R31, of spec/20_memory.md R44 and R45, of spec/40_sequencer.md R71 and of
spec/70_reset_and_hazards.md R108. -/

namespace Sys2Proof.Machine

/-! ## The register writes of a T-state -/

/-- R21: a commit leaves every register that it does not write. -/
theorem State.getReg_commit_of_not_mem (s : State) (p : Phase) (g : List Signal) {ws : List (Reg × Nat)} {r : Reg}
    (hr : r ∉ ws.map Prod.fst) : (s.commit p g ws).getReg r = s.getReg r := by
  suffices h : ∀ t : State, (ws.foldl (fun t w => t.setReg w.1 w.2) t).getReg r = t.getReg r by
    rw [← h s]
    cases r <;> rfl
  induction ws with
  | nil => exact fun t => rfl
  | cons w rest ih =>
    rw [List.map_cons, List.mem_cons, not_or] at hr
    intro t
    rw [List.foldl_cons, ih hr.2, State.getReg_setReg_of_ne _ hr.1]

/-- Where the engine is not Halted, the dispatch answers by the T-state of its phase. -/
theorem executeState_next_of_not_halted {s t : State} {t4 t5 t6 : Result} (hs : s.phase ≠ .Halted)
    (h : executeState s t4 t5 t6 = .next t) :
    (s.phase = .T3 ∧ t4 = .next t) ∨ (s.phase = .T4 ∧ t5 = .next t) ∨ (s.phase = .T5 ∧ t6 = .next t) := by
  obtain h | h | h | ⟨hp, -⟩ := executeState_next h
  exacts [.inl h, .inr (.inl h), .inr (.inr h), absurd hp hs]

/-- R21, R60: where the engine is not Halted, an execute T-state is one commit, of the registers of its row of the table. -/
theorem exec_next_commit {i : Instr} {s t : State} (hs : s.phase ≠ .Halted) (h : exec i s = .next t) :
    ∃ g ws, t = s.commit t.phase g ws ∧ ws.map Prod.fst = tabledWrites t.phase i := by
  cases i
  all_goals
    obtain ⟨-, ht⟩ | ⟨-, ht⟩ | ⟨-, ht⟩ := executeState_next_of_not_halted hs h <;> cases ht <;> exact ⟨_, _, rfl, rfl⟩

/-- R21, R60: where the engine is not Halted, a step is one commit, of registers of its row of the table. -/
theorem step_next_commit {s t : State} (hs : s.phase ≠ .Halted) (h : step s = .next t) :
    ∃ g ws, t = s.commit t.phase g ws ∧ ws.map Prod.fst ⊆ tabledWrites t.phase (decodeByte t.ir) := by
  obtain ⟨-, rfl⟩ | ⟨-, rfl⟩ | ⟨-, rfl⟩ | ⟨-, hexec⟩ | ⟨hp, -⟩ := step_next h
  · exact ⟨_, _, rfl, List.Subset.refl [Reg.mar]⟩
  · exact ⟨_, _, rfl, show [Reg.ir, .pc] ⊆ [.pc, .ir] by decide⟩
  · exact ⟨_, _, rfl, List.nil_subset _⟩
  · obtain ⟨g, ws, ht, hws⟩ := exec_next_commit hs hexec
    rw [exec_next_ir hexec]
    exact ⟨g, ws, ht, hws ▸ List.Subset.refl _⟩
  · exact absurd hp hs

/-- R21: a register that the row of a T-state does not write is unchanged. -/
theorem step_next_getReg {s t : State} (hs : s.phase ≠ .Halted) (h : step s = .next t) {r : Reg}
    (hr : r ∉ tabledWrites t.phase (decodeByte t.ir)) : t.getReg r = s.getReg r := by
  obtain ⟨g, ws, ht, hws⟩ := step_next_commit hs h
  rw [ht]
  exact s.getReg_commit_of_not_mem _ g (mt (@hws r) hr)

/-- Settles O2: a T-state is one commit, and a commit leaves the registers that it does not write. -/
theorem stepWritesOnlyTheTabledRegisters : Obligations.StepWritesOnlyTheTabledRegisters := by
  unfold Obligations.StepWritesOnlyTheTabledRegisters
  exact fun s t hs h r => step_next_getReg hs h

/-! ## The program counter -/

/-- The table of R59 leads to T2 from T1 alone. -/
theorem phaseAfter_eq_T2_iff {p : Phase} {i : Instr} : phaseAfter p i = .T2 ↔ p = .T1 := by
  cases p
  case T3 => cases hi : i.isHlt <;> simp [phaseAfter, hi]
  all_goals simp [phaseAfter]

/-- R66: a step that leads to T2 is T2's fetch. -/
theorem step_next_T2 {s t : State} (h : step s = .next t) (ht : t.phase = .T2) :
    t = { s with ir := s.mem.read s.mar, pc := s.pc + 1, sig := .asserting [.Ce, .Li], phase := .T2 } := by
  have hp : s.phase = .T1 := phaseAfter_eq_T2_iff.mp ((step_next_phase h).symm.trans ht)
  rw [step_of_T1 hp] at h
  cases h
  rfl

/-- The table of R21 writes PC at T2 alone. -/
theorem pc_mem_tabledWrites_iff (p : Phase) (i : Instr) : Reg.pc ∈ tabledWrites p i ↔ p = .T2 := by
  cases p <;> cases i <;> simp [tabledWrites]

/-- Settles O28: T2's fetch increments PC, and no other row of the table of register writes has it. -/
theorem pcChangesOnlyAtT2 : Obligations.PcChangesOnlyAtT2 := by
  unfold Obligations.PcChangesOnlyAtT2
  refine fun s t h => ⟨fun ht => ?_, fun ht => ?_⟩
  · rw [step_next_T2 h ht]
    exact BitVec.toNat_add s.pc 1
  · by_cases hs : s.phase = .Halted
    · rw [step_of_halted hs] at h
      cases h
      rfl
    · exact BitVec.eq_of_toNat_eq (step_next_getReg hs h (mt (pc_mem_tabledWrites_iff _ _).mp ht))

/-! ## Runs -/

/-- What every step keeps, a run of any length keeps. -/
theorem runSteps_keeps {P : State → Prop} (hstep : ∀ s t, P s → step s = .next t → P t) {k : Nat} {s t : State} (hs : P s)
    (h : runSteps k s = .next t) : P t := by
  induction k generalizing s with
  | zero =>
    cases h
    exact hs
  | succ k ih =>
    rw [runSteps_succ] at h
    obtain ⟨u, hu, h⟩ := andThen_next h
    exact ih (hstep s u hs hu) h

/-- R31: a T-state keeps memory, as the same data. -/
theorem step_next_mem {s t : State} (h : step s = .next t) : t.mem = s.mem := by
  by_cases hs : s.phase = .Halted
  · rw [step_of_halted hs] at h
    cases h
    rfl
  · obtain ⟨g, ws, ht, -⟩ := step_next_commit hs h
    rw [ht, State.commit_mem]

/-- R31: a run keeps memory, as the same data. -/
theorem runSteps_next_mem {k : Nat} {s t : State} (h : runSteps k s = .next t) : t.mem = s.mem :=
  runSteps_keeps (P := fun u => u.mem = s.mem) (fun _ _ hu hstep => (step_next_mem hstep).trans hu) rfl h

/-- Settles O7: memory stays the same data, so every cell reads as before. -/
theorem engineNeverWritesMemory : Obligations.EngineNeverWritesMemory := by
  unfold Obligations.EngineNeverWritesMemory
  intro k s t h a
  rw [runSteps_next_mem h]

/-- Settles O14: construction and the load leave the image in memory, and the run keeps it. -/
theorem everyCellKeepsTheLoadedValue : Obligations.EveryCellKeepsTheLoadedValue := by
  unfold Obligations.EveryCellKeepsTheLoadedValue
  intro img k s t hs h a
  have himg : s.mem = Memory.ofImage img := by
    obtain rfl | ⟨r, hr⟩ := hs
    · rfl
    · rw [(load_next hr).2]
  rw [runSteps_next_mem h, himg, Memory.read_ofImage]

/-- R107: of the state before it, reset keeps memory and nothing else. -/
theorem State.resetEngine_eq_of_mem_eq {s t : State} (h : t.mem = s.mem) : t.resetEngine = s.resetEngine := by
  rw [State.resetEngine, h, State.resetEngine]

/-- Settles O53: the run keeps the memory of construction, which is all that reset keeps. -/
theorem resetAndRunAgainGivesTheSame : Obligations.ResetAndRunAgainGivesTheSame := by
  unfold Obligations.ResetAndRunAgainGivesTheSame
  intro img k t h
  have hreset : t.resetEngine = State.construct img := by
    rw [State.resetEngine_eq_of_mem_eq (runSteps_next_mem h), State.resetEngine_construct]
  exact ⟨hreset, fun n => by rw [hreset]⟩

end Sys2Proof.Machine
end

section
/-! What a T-state does not read: the matrix and OUT never, and memory only at the tabled T-states; with the statements of
spec/10_state.md R20, R26 and R33 and of spec/20_memory.md R37. -/

namespace Sys2Proof.Machine

/-! ## The matrix -/

/-- Where the phase is the same and not Halted, the dispatch does the same if the three T-states are the same. -/
theorem executeState_congr {s s' : State} {t4 t5 t6 t4' t5' t6' : Result} (hs : s.phase ≠ .Halted)
    (hp : s'.phase = s.phase) (h4 : t4' = t4) (h5 : t5' = t5) (h6 : t6' = t6) :
    executeState s' t4' t5' t6' = executeState s t4 t5 t6 := by
  subst h4 h5 h6
  simp only [executeState, hp]
  cases h : s.phase
  case Halted => exact absurd h hs
  all_goals rfl

/-- R25, R26: an execute T-state asserts its set on a fresh matrix. -/
theorem exec_with_sig {s : State} (hs : s.phase ≠ .Halted) (i : Instr) (g : Signals) :
    exec i { s with sig := g } = exec i s := by
  cases i <;> exact executeState_congr hs rfl rfl rfl rfl

/-- Settles O4: the fetch T-states, like the execute ones, assert their set on a fresh matrix. -/
theorem matrixIsNeverRead : Obligations.MatrixIsNeverRead := by
  unfold Obligations.MatrixIsNeverRead
  intro s g hs
  cases hp : s.phase
  case Halted => exact absurd hp hs
  case T3 | T4 | T5 =>
    have hexec := exec_with_sig hs (decodeByte s.ir) g
    simp only [step, hp] at hexec ⊢
    exact hexec
  all_goals
    simp only [step, hp]
    rfl

/-! ## OUT and memory -/

/-- Where the phase is the same, the dispatch answers in relation `R` if each T-state that answers does, and the states
themselves are in relation. -/
theorem executeState_related {R : State → State → Prop} {s s' t : State} {t4 t5 t6 t4' t5' t6' : Result}
    (h : executeState s t4 t5 t6 = .next t) (hR : R s s') (hp : s'.phase = s.phase)
    (h4 : t4 = .next t → ∃ u, t4' = .next u ∧ R t u)
    (h5 : s.phase = .T4 → t5 = .next t → ∃ u, t5' = .next u ∧ R t u)
    (h6 : t6 = .next t → ∃ u, t6' = .next u ∧ R t u) :
    ∃ u, executeState s' t4' t5' t6' = .next u ∧ R t u := by
  obtain ⟨hs, ht⟩ | ⟨hs, ht⟩ | ⟨hs, ht⟩ | ⟨hs, rfl⟩ := executeState_next h <;> simp only [executeState, hp, hs]
  exacts [h4 ht, h5 hs ht, h6 ht, ⟨_, rfl, hR⟩]

/-- A T-state that answers one state is in relation with one that answers a related state. -/
theorem next_related {R : State → State → Prop} {a a' t : State} (hR : R a a')
    (h : (Host.Outcome.next a : Result) = .next t) : ∃ u, (Host.Outcome.next a' : Result) = .next u ∧ R t u := by
  cases h
  exact ⟨a', rfl, hR⟩

/-- Where the phase is the same, the steps answer in relation `R` if each fetch T-state and the execute T-state does, and the
states themselves are in relation. -/
theorem step_related {R : State → State → Prop} {s s' t : State} (h : step s = .next t) (hR : R s s')
    (hp : s'.phase = s.phase) (h1 : R (fetchT1 s) (fetchT1 s')) (h2 : s.phase = .T1 → R (fetchT2 s) (fetchT2 s'))
    (h3 : R (fetchT3 s) (fetchT3 s'))
    (hexec : exec (decodeByte s.ir) s = .next t → ∃ u, exec (decodeByte s'.ir) s' = .next u ∧ R t u) :
    ∃ u, step s' = .next u ∧ R t u := by
  obtain ⟨hs | hs, rfl⟩ | ⟨hs, rfl⟩ | ⟨hs, rfl⟩ | ⟨hs, ht⟩ | ⟨hs, rfl⟩ := step_next h
  case inr.inr.inr.inl =>
    rw [step_eq_exec (hp ▸ hs)]
    exact hexec ht
  all_goals simp only [step, hp, hs]
  exacts [⟨_, rfl, h1⟩, ⟨_, rfl, h1⟩, ⟨_, rfl, h2 hs⟩, ⟨_, rfl, h3⟩, ⟨_, rfl, hR⟩]

/-- Two states that differ in OUT at most. -/
def EqButOut (t u : State) : Prop := { u with out := t.out } = t

/-- The second state is the first with the memory `m`. -/
def EqWithMem (m : Memory) (t u : State) : Prop := u = { t with mem := m }

/-- R20, R33: whatever OUT was, an execute T-state does the same to all but OUT. -/
theorem exec_with_out {i : Instr} {s t : State} (h : exec i s = .next t) (v : Byte) :
    ∃ u, exec i { s with out := v } = .next u ∧ EqButOut t u := by
  have hs : EqButOut s { s with out := v } := rfl
  cases i with
  | hlt x => exact executeState_related h hs rfl (next_related rfl) (fun _ h5 => nomatch h5) (fun h6 => nomatch h6)
  | _ => exact executeState_related h hs rfl (next_related rfl) (fun _ => next_related rfl) (next_related rfl)

/-- Settles O8: neither the fetch T-states nor the execute ones give OUT a part in what they write. -/
theorem outRegisterIsNeverRead : Obligations.OutRegisterIsNeverRead := by
  unfold Obligations.OutRegisterIsNeverRead
  intro s t v h
  have hs : EqButOut s { s with out := v } := rfl
  exact step_related h hs rfl rfl (fun _ => rfl) rfl fun hexec => exec_with_out hexec v

/-- R37: but at T5 of LDA, ADD and SUB, an execute T-state does the same whatever memory was. -/
theorem exec_with_mem {i : Instr} {s t : State} (hread : ¬(s.phase = .T4 ∧ i.usesMemory = true)) (h : exec i s = .next t)
    (m : Memory) : ∃ u, exec i { s with mem := m } = .next u ∧ EqWithMem m t u := by
  have hs : EqWithMem m s { s with mem := m } := rfl
  cases i with
  | lda a | add a | sub a =>
    exact executeState_related h hs rfl (next_related rfl) (fun hp => absurd ⟨hp, rfl⟩ hread) (next_related rfl)
  | hlt x => exact executeState_related h hs rfl (next_related rfl) (fun _ h5 => nomatch h5) (fun h6 => nomatch h6)
  | _ => exact executeState_related h hs rfl (next_related rfl) (fun _ => next_related rfl) (next_related rfl)

/-- Settles O11: T1 and T3 of the fetch read no cell, and the execute T-states are those of `exec_with_mem`. -/
theorem memoryIsReadOnlyAtTheTabledTStates : Obligations.MemoryIsReadOnlyAtTheTabledTStates := by
  unfold Obligations.MemoryIsReadOnlyAtTheTabledTStates
  intro s t m hT1 hread h
  have hs : EqWithMem m s { s with mem := m } := rfl
  obtain ⟨u, hu, rfl⟩ :=
    step_related h hs rfl rfl (fun hp => absurd hp hT1) rfl fun hexec => exec_with_mem hread hexec m
  exact hu

end Sys2Proof.Machine
end

section
/-! The control signals and the bus: which signals a matrix asserts, what the signal table holds, and the value each T-state
moves; with the statements of spec/10_state.md R25 and R27 and of spec/40_sequencer.md R63 and R83. -/

namespace Sys2Proof.Machine

/-! ## The matrix and the signal table -/

/-- Settles O3, one signal at a time. -/
theorem matrixAssertsExactlyTheNamedSignals : Obligations.MatrixAssertsExactlyTheNamedSignals := by
  unfold Obligations.MatrixAssertsExactlyTheNamedSignals
  intro names x
  cases x <;> exact List.elem_iff

/-- The nine sets of the table of R62. -/
def tabledSets : List Signals :=
  [.none, .asserting [.Ep, .Lm], .asserting [.Ce, .Li], .asserting [.Ei, .Lm], .asserting [.La], .asserting [.Lb],
    .asserting [.Ea, .Eu, .La], .asserting [.Ea, .Eu, .La, .Su], .asserting [.Ea, .Lo]]

/-- R62: every entry of the signal table is one of the nine sets. -/
theorem signalTable_mem_tabledSets (p : Phase) (i : Instr) : signalTable p i ∈ tabledSets := by
  cases p
  case T4 | T5 | T6 => cases i <;> simp [signalTable, tabledSets]
  all_goals simp [signalTable, tabledSets]

/-- Settles O5: the matrix is an entry of the signal table, and the nine sets have the nine words. -/
theorem signalWordIsOneOfTheNine : Obligations.SignalWordIsOneOfTheNine := by
  unfold Obligations.SignalWordIsOneOfTheNine
  intro s t hs h
  have hwords : ∀ g ∈ tabledSets, g.toWord ∈
      [0x000#12, 0x600#12, 0x180#12, 0x240#12, 0x020#12, 0x002#12, 0x034#12, 0x03C#12, 0x011#12] := by decide
  rw [assertedSetIsTheTabledOne s t hs h]
  exact hwords _ (signalTable_mem_tabledSets t.phase _)

/-- R63: none of the nine sets has Cp. -/
theorem signalTable_get_Cp (p : Phase) (i : Instr) : (signalTable p i).get .Cp = false := by
  have hcp : ∀ g ∈ tabledSets, g.get .Cp = false := by decide
  exact hcp _ (signalTable_mem_tabledSets p i)

/-- R63: the entry of T2, and no other, has Ce. -/
theorem signalTable_get_Ce (p : Phase) (i : Instr) : (signalTable p i).get .Ce = decide (p = .T2) := by
  cases p
  case T4 | T5 | T6 => cases i <;> rfl
  all_goals rfl

/-- Settles O23: the matrix is an entry of the signal table, and T2's fetch increments PC. -/
theorem cpIsNeverAssertedAndCeOnlyAtT2 : Obligations.CpIsNeverAssertedAndCeOnlyAtT2 := by
  unfold Obligations.CpIsNeverAssertedAndCeOnlyAtT2
  intro s t hs h
  rw [assertedSetIsTheTabledOne s t hs h, signalTable_get_Cp, signalTable_get_Ce, decide_eq_true_iff]
  exact ⟨rfl, Iff.rfl, fun ht => by rw [step_next_T2 h ht]⟩

/-! ## The T-state that led to a phase -/

/-- The table of R59 leads to T4 from T3 with any instruction but HLT, to T5 from T4, to T6 from T5, and there from nowhere
else. -/
theorem phaseAfter_eq_executing_iff (p : Phase) (i : Instr) :
    (phaseAfter p i = .T4 ↔ p = .T3 ∧ i.isHlt = false) ∧ (phaseAfter p i = .T5 ↔ p = .T4) ∧
    (phaseAfter p i = .T6 ↔ p = .T5) := by
  cases p
  case T3 => cases hi : i.isHlt <;> simp [phaseAfter, hi]
  all_goals simp [phaseAfter]

/-- The table of R59 leads to T1 from a cycle boundary alone. -/
theorem phaseAfter_eq_T1_iff {p : Phase} {i : Instr} : phaseAfter p i = .T1 ↔ p = .T0 ∨ p = .T6 := by
  cases p
  case T3 => cases hi : i.isHlt <;> simp [phaseAfter, hi]
  all_goals simp [phaseAfter]

/-- R65: a step that leads to T1 is T1's. -/
theorem step_next_T1 {s t : State} (h : step s = .next t) (ht : t.phase = .T1) :
    t = { s with mar := s.pc, sig := .asserting [.Ep, .Lm], phase := .T1 } := by
  have hp : s.AtBoundary := phaseAfter_eq_T1_iff.mp ((step_next_phase h).symm.trans ht)
  rw [step_of_atBoundary hp] at h
  cases h
  rfl

/-- R69, R72: a step that leads to T4, T5 or T6 is an execute T-state of the instruction that IR holds after it. -/
theorem exec_of_step {s t : State} {i : Instr} (h : step s = .next t) (ht : t.Executing) (hi : decodeByte t.ir = i) :
    exec i s = .next t ∧ phaseAfter s.phase i = t.phase := by
  have hexec := exec_of_step_executing h ht
  rw [exec_next_ir hexec] at hi
  subst hi
  exact ⟨hexec, (exec_next_phase hexec).symm⟩

/-- R72: a step that leads to T4 was made from T3. -/
theorem exec_of_step_T4 {s t : State} {i : Instr} (h : step s = .next t) (ht : t.phase = .T4)
    (hi : decodeByte t.ir = i) : s.phase = .T3 ∧ exec i s = .next t := by
  obtain ⟨hexec, hp⟩ := exec_of_step h (.inl ht) hi
  exact ⟨((phaseAfter_eq_executing_iff _ _).1.mp (hp.trans ht)).1, hexec⟩

/-- R72: a step that leads to T5 was made from T4. -/
theorem exec_of_step_T5 {s t : State} {i : Instr} (h : step s = .next t) (ht : t.phase = .T5)
    (hi : decodeByte t.ir = i) : s.phase = .T4 ∧ exec i s = .next t := by
  obtain ⟨hexec, hp⟩ := exec_of_step h (.inr (.inl ht)) hi
  exact ⟨(phaseAfter_eq_executing_iff _ _).2.1.mp (hp.trans ht), hexec⟩

/-- R72: a step that leads to T6 was made from T5. -/
theorem exec_of_step_T6 {s t : State} {i : Instr} (h : step s = .next t) (ht : t.phase = .T6)
    (hi : decodeByte t.ir = i) : s.phase = .T5 ∧ exec i s = .next t := by
  obtain ⟨hexec, hp⟩ := exec_of_step h (.inr (.inr ht)) hi
  exact ⟨(phaseAfter_eq_executing_iff _ _).2.2.mp (hp.trans ht), hexec⟩

/-- R84, R88, R89: T4 of LDA, ADD and SUB alike loads MAR from the operand. -/
theorem exec_usesMemory_of_T3 {i : Instr} {s : State} (hi : i.usesMemory = true) (hp : s.phase = .T3) :
    exec i s = .next { s with mar := i.operand, sig := .asserting [.Ei, .Lm], phase := .T4 } := by
  cases i with
  | lda a => exact exec_lda_of_T3 hp a
  | add a => exact exec_add_of_T3 hp a
  | sub a => exact exec_sub_of_T3 hp a
  | _ => exact absurd hi Bool.false_ne_true

/-! ## A byte by its opcode -/

/-- R52: the byte of opcode 0x1 is LDA of its operand. -/
theorem decodeByte_of_opcode_1 {b : Byte} (h : opcodeField b = 0x1) : decodeByte b = .lda (operandField b) :=
  (decodeByte_eq_iff b _).mpr ⟨h, rfl⟩

/-- R52: the byte of opcode 0x2 is ADD of its operand. -/
theorem decodeByte_of_opcode_2 {b : Byte} (h : opcodeField b = 0x2) : decodeByte b = .add (operandField b) :=
  (decodeByte_eq_iff b _).mpr ⟨h, rfl⟩

/-- R52: the byte of opcode 0x3 is SUB of its operand. -/
theorem decodeByte_of_opcode_3 {b : Byte} (h : opcodeField b = 0x3) : decodeByte b = .sub (operandField b) :=
  (decodeByte_eq_iff b _).mpr ⟨h, rfl⟩

/-- R52: the byte of opcode 0xE is OUT. -/
theorem decodeByte_of_opcode_E {b : Byte} (h : opcodeField b = 0xE) : decodeByte b = .out (operandField b) :=
  (decodeByte_eq_iff b _).mpr ⟨h, rfl⟩

/-! ## The bus -/

/-- R83: the bus has no value exactly where the entry of the signal table is the empty set. -/
theorem busValue_isNone (t : State) :
    t.busValue.isNone = decide (signalTable t.phase (decodeByte t.ir) = .none) := by
  simp only [State.busValue]
  cases t.phase
  case T4 | T5 | T6 => cases decodeByte t.ir <;> rfl
  all_goals rfl

/-- R83: after T4 of LDA, ADD and SUB the bus value is the operand. -/
theorem busValue_of_usesMemory {t : State} (ht : t.phase = .T4) (hi : (decodeByte t.ir).usesMemory = true) :
    t.busValue = some ((decodeByte t.ir).operand.setWidth 8) := by
  rw [State.busValue, ht]
  cases hj : decodeByte t.ir with
  | lda a | add a | sub a => rfl
  | _ => simp [hj, Instr.usesMemory] at hi

/-- Settles O37: each clause by the T-state that led to its phase, and the first by the table of the signals. -/
theorem busValueIsTheValueMoved : Obligations.BusValueIsTheValueMoved := by
  unfold Obligations.BusValueIsTheValueMoved
  intro s t hs h
  refine ⟨fun hnone => ?empty, fun ht => ?t1, fun ht => ?t2, fun ht hi => ?mar, fun ht hop => ?out, fun ht hop => ?lda,
    fun ht hop => ?tmp, fun ht hop => ?add, fun ht hop => ?sub⟩
  case empty =>
    rw [← Option.isNone_iff_eq_none, busValue_isNone, ← assertedSetIsTheTabledOne s t hs h, decide_eq_true_iff]
    exact hnone
  case t1 =>
    rw [State.busValue, ht, step_next_T1 h ht]
  case t2 =>
    rw [State.busValue, ht, step_next_T2 h ht]
    rfl
  case mar =>
    obtain ⟨hp, hexec⟩ := exec_of_step_T4 h ht rfl
    rw [exec_usesMemory_of_T3 hi hp] at hexec
    rw [busValue_of_usesMemory ht hi, ← congrArg State.mar (Host.Outcome.next.inj hexec)]
  case out =>
    have hi := decodeByte_of_opcode_E hop
    obtain ⟨hp, hexec⟩ := exec_of_step_T4 h ht hi
    rw [exec_out_of_T3 hp] at hexec
    rw [State.busValue, ht, hi, ← Host.Outcome.next.inj hexec]
  case lda =>
    have hi := decodeByte_of_opcode_1 hop
    obtain ⟨hp, hexec⟩ := exec_of_step_T5 h ht hi
    rw [exec_lda_of_T4 hp] at hexec
    rw [State.busValue, ht, hi, ← Host.Outcome.next.inj hexec]
    rfl
  case tmp =>
    obtain hop | hop := hop
    · have hi := decodeByte_of_opcode_2 hop
      obtain ⟨hp, hexec⟩ := exec_of_step_T5 h ht hi
      rw [exec_add_of_T4 hp] at hexec
      rw [State.busValue, ht, hi, ← Host.Outcome.next.inj hexec]
      rfl
    · have hi := decodeByte_of_opcode_3 hop
      obtain ⟨hp, hexec⟩ := exec_of_step_T5 h ht hi
      rw [exec_sub_of_T4 hp] at hexec
      rw [State.busValue, ht, hi, ← Host.Outcome.next.inj hexec]
      rfl
  case add =>
    have hi := decodeByte_of_opcode_2 hop
    obtain ⟨hp, hexec⟩ := exec_of_step_T6 h ht hi
    rw [exec_add_of_T5 hp, ← alu_add] at hexec
    rw [State.busValue, ht, hi, ← Host.Outcome.next.inj hexec]
    exact ⟨rfl, rfl⟩
  case sub =>
    have hi := decodeByte_of_opcode_3 hop
    obtain ⟨hp, hexec⟩ := exec_of_step_T6 h ht hi
    rw [exec_sub_of_T5 hp, ← alu_sub] at hexec
    rw [State.busValue, ht, hi, ← Host.Outcome.next.inj hexec]
    exact ⟨rfl, rfl⟩

end Sys2Proof.Machine
end

section
/-! The execute T-states: what each instruction leaves unchanged, where it stops by name, and what its operand has no part in;
with the statements of spec/41_load.md to spec/44_control.md on them, and of spec/30_encoding.md R53. -/

namespace Sys2Proof.Machine

/-- R92: an unrecognized row changes no register and no memory. -/
theorem noOpCycle_frame {s t : State} (h : noOpCycle s = .next t) : (∀ r, t.getReg r = s.getReg r) ∧ t.mem = s.mem := by
  obtain ⟨-, rfl⟩ | ⟨-, rfl⟩ | ⟨-, rfl⟩ | ⟨-, rfl⟩ := noOpCycle_next h <;> exact ⟨fun r => by cases r <;> rfl, rfl⟩

/-- R91: HLT changes no register and no memory. -/
theorem exec_hlt_frame {x : Nibble} {s t : State} (h : exec (.hlt x) s = .next t) :
    (∀ r, t.getReg r = s.getReg r) ∧ t.mem = s.mem := by
  obtain ⟨-, rfl⟩ | ⟨-, rfl⟩ := exec_hlt_next h <;> exact ⟨fun r => by cases r <;> rfl, rfl⟩

/-- R88, R89: ADD and SUB change MAR, TMP and ACC at most. -/
theorem exec_add_or_sub_frame {x : Nibble} {s t : State} (h : exec (.add x) s = .next t ∨ exec (.sub x) s = .next t) :
    t.pc = s.pc ∧ t.ir = s.ir ∧ t.out = s.out ∧ ∀ a, t.mem.read a = s.mem.read a := by
  obtain h | h := h
  · obtain ⟨-, rfl⟩ | ⟨-, rfl⟩ | ⟨-, rfl⟩ | ⟨-, rfl⟩ := exec_add_next h <;> exact ⟨rfl, rfl, rfl, fun _ => rfl⟩
  · obtain ⟨-, rfl⟩ | ⟨-, rfl⟩ | ⟨-, rfl⟩ | ⟨-, rfl⟩ := exec_sub_next h <;> exact ⟨rfl, rfl, rfl, fun _ => rfl⟩

/-- Settles O45, by what each instruction can do. -/
theorem executeFrames : Obligations.ExecuteFrames := by
  unfold Obligations.ExecuteFrames
  refine fun x s t => ⟨fun h => ?lda, exec_add_or_sub_frame, fun h => ?out, fun i hi h => ?none⟩
  case lda =>
    obtain ⟨-, rfl⟩ | ⟨-, rfl⟩ | ⟨-, rfl⟩ | ⟨-, rfl⟩ := exec_lda_next h <;> exact ⟨rfl, rfl, rfl, rfl, fun _ => rfl⟩
  case out =>
    obtain ⟨-, rfl⟩ | ⟨-, rfl⟩ | ⟨-, rfl⟩ | ⟨-, rfl⟩ := exec_out_next h <;> exact ⟨rfl, rfl, rfl, rfl, rfl, fun _ => rfl⟩
  case none =>
    have hframe : (∀ r, t.getReg r = s.getReg r) ∧ t.mem = s.mem := by
      obtain rfl | hi := List.mem_cons.mp hi
      · exact exec_hlt_frame h
      · exact noOpCycle_frame (exec_of_mem_unrecognizedRows hi s ▸ h)
    exact ⟨hframe.1, fun a => by rw [hframe.2]⟩

/-- Settles O18: OUT and HLT do not mention their operand, and every unrecognized row runs the one no-op cycle. -/
theorem ignoredOperandHasNoEffect : Obligations.IgnoredOperandHasNoEffect := by
  unfold Obligations.IgnoredOperandHasNoEffect
  exact fun x y s => ⟨rfl, rfl, fun z hz => exec_of_mem_unrecognizedRows hz s⟩

/-- R72: at T0, T1, T2 and T6 no execute T-state is next. -/
theorem executeState_off_phase {s : State} (hp : s.phase = .T0 ∨ s.phase = .T1 ∨ s.phase = .T2 ∨ s.phase = .T6)
    (t4 t5 t6 : Result) : executeState s t4 t5 t6 = .refused .noExecuteStateNext := by
  obtain hp | hp | hp | hp := hp <;> rw [executeState, hp]

/-- R73: the dispatch changes nothing on a Halted engine. -/
theorem executeState_of_halted {s : State} (hp : s.phase = .Halted) (t4 t5 t6 : Result) :
    executeState s t4 t5 t6 = .next s := by
  rw [executeState, hp]

/-- Settles O46: every instruction is a dispatch on the phase. -/
theorem execStopsByNameOffItsPhases : Obligations.ExecStopsByNameOffItsPhases := by
  unfold Obligations.ExecStopsByNameOffItsPhases
  refine ⟨fun i s hp => ?_, fun x s hp => ?_, fun i s hp => ?_⟩
  · cases i <;> exact executeState_off_phase hp ..
  · obtain hp | hp := hp
    · exact executeState_of_T4 hp ..
    · exact executeState_of_T5 hp ..
  · cases i <;> exact executeState_of_halted hp ..

end Sys2Proof.Machine
end

section
/-! The fetch cycle: the state it leaves, and the steps after it; with the statements of spec/40_sequencer.md R68, R69, R72 and
R74, and the convention of withFetchWord (entry 2). -/

namespace Sys2Proof.Machine

/-- R68: the state after T1, T2 and T3 from a cycle boundary. -/
def State.fetched (s : State) : State :=
  { s with pc := s.pc + 1, mar := s.pc, ir := s.mem.read s.pc, sig := .none, phase := .T3 }

/-- R74: `fetch_cycle` from a cycle boundary answers the fetched state, not terminal. -/
theorem fetchCycle_eq_fetched {s : State} (hp : s.AtBoundary) :
    fetchCycle s = .next { state := s.fetched, terminal := false } := fetchCycle_of_atBoundary hp

/-- R65 to R68: three steps from a cycle boundary lead to the fetched state. -/
theorem runSteps_three_of_atBoundary {s : State} (hp : s.AtBoundary) : runSteps 3 s = .next s.fetched := by
  rw [runSteps_succ, step_of_atBoundary hp, andThen_of_next, runSteps_succ, step_of_T1 rfl, andThen_of_next, runSteps_succ,
    step_of_T2 rfl, andThen_of_next, runSteps_zero]
  rfl

/-- R74: away from the cycle boundaries, and where the engine is not Halted, there is no `fetch_cycle`. -/
theorem fetchCycle_off_boundary {s : State} (hb : ¬s.AtBoundary) (hs : s.phase ≠ .Halted) :
    fetchCycle s = .refused .fetchCycleOffBoundary := by
  cases hp : s.phase
  case T0 => exact absurd (.inl hp) hb
  case T6 => exact absurd (.inr hp) hb
  case Halted => exact absurd hp hs
  all_goals rw [fetchCycle, hp]

/-- Settles O25: `fetch_cycle` and three steps lead to one state. -/
theorem fetchCycleIsThreeTStates : Obligations.FetchCycleIsThreeTStates := by
  unfold Obligations.FetchCycleIsThreeTStates
  refine fun s => ⟨fun hb => ⟨fetchCycle_of_atBoundary hb, ?_⟩, fetchCycle_of_halted, fetchCycle_off_boundary⟩
  rw [runSteps_three_of_atBoundary hb, drive, fetchCycle_eq_fetched hb, andThen_of_next]

/-- R69: after a step of `i` that leaves T4 or T5, the next step is `exec i` again. -/
theorem step_eq_exec_of_exec {i : Instr} {s t : State} (h : exec i s = .next t) (hi : decodeByte s.ir = i)
    (hp : t.phase = .T4 ∨ t.phase = .T5) : step t = exec i t := by
  rw [step_eq_exec (.inr hp), exec_next_ir h, hi]

/-- Settles O26: the fetched state is at T3 with the byte in IR, each T-state of `i` keeps IR, and the phase moves as tabled. -/
theorem stepRunsTheDecodedInstruction : Obligations.StepRunsTheDecodedInstruction := by
  unfold Obligations.StepRunsTheDecodedInstruction
  refine ⟨fun s => step_eq_exec, fun s i hb hdec => ?_⟩
  have hi : decodeByte s.fetched.ir = i := congrArg Prod.fst (Except.ok.inj hdec)
  refine ⟨s.fetched, runSteps_three_of_atBoundary hb, rfl, by rw [step_eq_exec (.inl rfl), hi], fun t ht hhalt => ?_⟩
  have hnot : i.isHlt = false := by
    by_contra hhlt
    rw [exec_next_phase ht] at hhalt
    exact hhalt (phaseAfter_eq_halted_iff.mpr (.inr ⟨rfl, by simpa using hhlt⟩))
  have ht4 : t.phase = .T4 := (exec_next_phase ht).trans ((phaseAfter_eq_executing_iff _ _).1.mpr ⟨rfl, hnot⟩)
  have hti : decodeByte t.ir = i := by rw [exec_next_ir ht, hi]
  refine ⟨step_eq_exec_of_exec ht hi (.inl ht4), fun u hu => ?_⟩
  have hu5 : u.phase = .T5 := (exec_next_phase hu).trans ((phaseAfter_eq_executing_iff _ _).2.1.mpr ht4)
  refine ⟨step_eq_exec_of_exec hu hti (.inr hu5), fun v hv => ?_⟩
  exact (exec_next_phase hv).trans ((phaseAfter_eq_executing_iff _ _).2.2.mpr hu5)

/-- Entry 2: the state after a table word was fetched is the fetched state of the memory with the word's byte at PC. -/
theorem withFetchWord_eq_fetched (s : State) (nbits w : Nat) :
    s.withFetchWord nbits w =
      State.fetched { s with mem := s.mem.write s.pc (firstByteOfTableWord nbits w) } := by
  rw [State.withFetchWord, fetchT1_eq, fetchT2_eq, fetchT3_eq]
  rfl

/-- Settles O27: the byte written at PC is the byte fetched, and the write leaves every other cell. -/
theorem fetchWordIsWhatTheNextStepRuns : Obligations.FetchWordIsWhatTheNextStepRuns := by
  unfold Obligations.FetchWordIsWhatTheNextStepRuns
  intro s nbits w i hwf hdec
  have hi : decodeByte (firstByteOfTableWord nbits w) = i := Option.some.inj hdec
  have hread := fun a => Memory.read_write (a := s.pc) (b := firstByteOfTableWord nbits w) (c := a) hwf
  have hcell : (s.withFetchWord nbits w).mem.read s.pc = firstByteOfTableWord nbits w := (hread s.pc).trans (if_pos rfl)
  have hir : (s.withFetchWord nbits w).ir = (s.withFetchWord nbits w).mem.read s.pc := by rw [withFetchWord_eq_fetched]; rfl
  refine ⟨?_, by rw [hcell, hi], fun a ha => (hread a).trans (if_neg ha)⟩
  rw [step_eq_exec (.inl rfl), hir, hcell, hi]

end Sys2Proof.Machine
end

section
/-! The execute cycle and the whole cycle: the state each instruction leaves, as one record, and the steps that lead to it; with
the statements of spec/40_sequencer.md R75, of spec/41_load.md to spec/44_control.md on whole cycles, and of
spec/70_reset_and_hazards.md R112. -/

namespace Sys2Proof.Machine

/-! ## The execute cycle -/

/-- R84, R88 to R92: the state that the execute cycle of an instruction leaves, from a state at T3. -/
def State.executed (i : Instr) (s : State) : State :=
  match i with
  | .lda a => { s with mar := a, acc := s.mem.read a, sig := .none, phase := .T6 }
  | .add a =>
    { s with mar := a, acc := s.acc + s.mem.read a, tmp := s.mem.read a, sig := .asserting [.Ea, .Eu, .La], phase := .T6 }
  | .sub a =>
    { s with
      mar := a, acc := s.acc - s.mem.read a, tmp := s.mem.read a, sig := .asserting [.Ea, .Eu, .La, .Su], phase := .T6 }
  | .out _ => { s with out := s.acc, sig := .none, phase := .T6 }
  | .hlt _ => { s with sig := .none, phase := .Halted }
  | .unrec0 _ | .unrec4 _ | .unrec5 _ | .unrec6 _ | .unrec7 _ | .unrec8 _ => { s with sig := .none, phase := .T6 }
  | .unrec9 _ | .unrecA _ | .unrecB _ | .unrecC _ | .unrecD _ => { s with sig := .none, phase := .T6 }

@[simp] theorem State.executed_pc (i : Instr) (s : State) : (s.executed i).pc = s.pc := by cases i <;> rfl

@[simp] theorem State.executed_mem (i : Instr) (s : State) : (s.executed i).mem = s.mem := by cases i <;> rfl

/-- R75: the execute cycle ends Halted for HLT and at T6 for every other instruction. -/
theorem State.executed_phase (i : Instr) (s : State) : (s.executed i).phase = if i.isHlt then .Halted else .T6 := by
  cases i <;> rfl

/-- D15: the execute cycle ends terminal exactly for HLT. -/
theorem State.executed_terminal (i : Instr) (s : State) : (s.executed i).terminal = i.isHlt := by cases i <;> rfl

/-- R92: from T3 the three T-states of a no-op cycle lead to T6 with the empty set. -/
theorem noOpCycle_three {s : State} (hp : s.phase = .T3) :
    ∃ t u, noOpCycle s = .next t ∧ noOpCycle t = .next u ∧ noOpCycle u = .next { s with sig := .none, phase := .T6 } :=
  ⟨_, _, noOpCycle_of_T3 hp, noOpCycle_of_T4 rfl, noOpCycle_of_T5 rfl⟩

/-- R84, R88 to R92: from T3 the three T-states of every instruction but HLT lead to the executed state. -/
theorem exec_three_of_not_hlt {i : Instr} {s : State} (hp : s.phase = .T3) (hi : i.isHlt = false) :
    ∃ t u, exec i s = .next t ∧ exec i t = .next u ∧ exec i u = .next (s.executed i) := by
  cases i with
  | lda a => exact ⟨_, _, exec_lda_of_T3 hp a, exec_lda_of_T4 rfl a, exec_lda_of_T5 rfl a⟩
  | add a => exact ⟨_, _, exec_add_of_T3 hp a, exec_add_of_T4 rfl a, exec_add_of_T5 rfl a⟩
  | sub a => exact ⟨_, _, exec_sub_of_T3 hp a, exec_sub_of_T4 rfl a, exec_sub_of_T5 rfl a⟩
  | out x => exact ⟨_, _, exec_out_of_T3 hp x, exec_out_of_T4 rfl x, exec_out_of_T5 rfl x⟩
  | hlt x => cases hi
  | _ x => exact noOpCycle_three hp

/-- R72, R75: from T3 three steps with any instruction but HLT in IR lead to the executed state, by way of T4 and T5. -/
theorem step_three_of_not_hlt {s : State} (hp : s.phase = .T3) (hi : (decodeByte s.ir).isHlt = false) :
    ∃ t u, step s = .next t ∧ t.phase = .T4 ∧ step t = .next u ∧ u.phase = .T5 ∧
      step u = .next (s.executed (decodeByte s.ir)) := by
  obtain ⟨t, u, ht, hu, hv⟩ := exec_three_of_not_hlt hp hi
  have ht4 : t.phase = .T4 := (exec_next_phase ht).trans ((phaseAfter_eq_executing_iff _ _).1.mpr ⟨hp, hi⟩)
  have hu5 : u.phase = .T5 := (exec_next_phase hu).trans ((phaseAfter_eq_executing_iff _ _).2.1.mpr ht4)
  refine ⟨t, u, (step_eq_exec (.inl hp)).trans ht, ht4, ?_, hu5, ?_⟩
  · rw [step_eq_exec_of_exec ht rfl (.inl ht4), hu]
  · rw [step_eq_exec_of_exec hu (exec_next_ir ht ▸ rfl) (.inr hu5), hv]

/-- R91: from T3 the step with HLT in IR leads to the executed state. -/
theorem step_of_hlt {s : State} (hp : s.phase = .T3) (hi : (decodeByte s.ir).isHlt = true) :
    step s = .next (s.executed (decodeByte s.ir)) := by
  rw [step_eq_exec (.inl hp)]
  cases hj : decodeByte s.ir with
  | hlt x => exact exec_hlt_of_T3 hp x
  | _ => simp [hj, Instr.isHlt] at hi

/-- The T-states of an execute cycle (R112): all of a cycle's but the three of the fetch. -/
def executeTStates (i : Instr) : Nat := if i.isHlt then 1 else 3

/-- R112: a cycle is the three T-states of the fetch and those of the execute cycle. -/
theorem cycleTStates_eq (i : Instr) : cycleTStates i = 3 + executeTStates i := by
  cases hi : i.isHlt <;> simp [cycleTStates, executeTStates, hi]

/-- R75: from T3 the steps of the execute cycle lead to the executed state. -/
theorem runSteps_executeTStates {s : State} (hp : s.phase = .T3) :
    runSteps (executeTStates (decodeByte s.ir)) s = .next (s.executed (decodeByte s.ir)) := by
  cases hi : (decodeByte s.ir).isHlt
  · obtain ⟨t, u, ht, -, hu, -, hv⟩ := step_three_of_not_hlt hp hi
    simp [executeTStates, hi, runSteps_succ, ht, hu, hv]
  · simp [executeTStates, hi, runSteps_succ, step_of_hlt hp hi]

/-- R75: before T6 and Halted, stepping to the end of the cycle is one step and then the rest. -/
theorem stepToCycleEnd_of_step {fuel : Nat} {s t : State} (hp : s.phase = .T3 ∨ s.phase = .T4 ∨ s.phase = .T5)
    (h : step s = .next t) : stepToCycleEnd (fuel + 1) s = stepToCycleEnd fuel t := by
  obtain hp | hp | hp := hp <;> rw [stepToCycleEnd, hp, h] <;> rfl

/-- R75: at T6 and Halted the cycle has ended. -/
theorem stepToCycleEnd_of_ended (fuel : Nat) {s : State} (hp : s.phase = .T6 ∨ s.phase = .Halted) :
    stepToCycleEnd fuel s = .next { state := s, terminal := s.terminal } := by
  cases fuel with
  | zero => rfl
  | succ fuel => obtain hp | hp := hp <;> rw [stepToCycleEnd, hp]

/-- R75: the executed state is at the end of a cycle. -/
theorem State.executed_ended (i : Instr) (s : State) : (s.executed i).phase = .T6 ∨ (s.executed i).phase = .Halted := by
  rw [State.executed_phase]
  cases i.isHlt
  exacts [.inl rfl, .inr rfl]

/-- R75: `execute_cycle` from T3 answers the executed state, terminal exactly for HLT. -/
theorem executeCycle_eq_executed {s : State} (hp : s.phase = .T3) :
    executeCycle s =
      .next { state := s.executed (decodeByte s.ir), terminal := (decodeByte s.ir).isHlt } := by
  have hend := fun fuel => stepToCycleEnd_of_ended fuel (State.executed_ended (decodeByte s.ir) s)
  rw [executeCycle, hp, ← State.executed_terminal _ s]
  cases hi : (decodeByte s.ir).isHlt
  · obtain ⟨t, u, ht, ht4, hu, hu5, hv⟩ := step_three_of_not_hlt hp hi
    rw [stepToCycleEnd_of_step (.inl hp) ht, stepToCycleEnd_of_step (.inr (.inl ht4)) hu,
      stepToCycleEnd_of_step (.inr (.inr hu5)) hv, hend]
  · rw [stepToCycleEnd_of_step (.inl hp) (step_of_hlt hp hi), hend]

/-- R75: away from T3, and where the engine is not Halted, there is no `execute_cycle`. -/
theorem executeCycle_off_T3 {s : State} (hT3 : s.phase ≠ .T3) (hs : s.phase ≠ .Halted) :
    executeCycle s = .refused .executeCycleOffT3 := by
  cases hp : s.phase
  case T3 => exact absurd hp hT3
  case Halted => exact absurd hp hs
  all_goals rw [executeCycle, hp]

/-- Settles O30: `execute_cycle` and the tabled number of steps lead to the executed state. -/
theorem executeCycleEndsAtT6OrHalted : Obligations.ExecuteCycleEndsAtT6OrHalted := by
  unfold Obligations.ExecuteCycleEndsAtT6OrHalted
  refine fun s => ⟨fun hp hi => ?_, fun hp hi => ?_, executeCycle_of_halted, executeCycle_off_T3⟩
  all_goals
    have hcycle := executeCycle_eq_executed hp
    have hsteps := runSteps_executeTStates hp
    have hphase := State.executed_phase (decodeByte s.ir) s
    simp only [executeTStates, hi] at hcycle hsteps hphase
    exact ⟨_, hcycle, hsteps, hphase⟩

/-! ## The whole cycle -/

/-- The instruction that the next cycle from a boundary fetches: that of the cell at PC. -/
def State.nextInstr (s : State) : Instr := decodeByte (s.mem.read s.pc)

/-- R84, R88 to R92: the state that a whole cycle from a boundary leaves. -/
def State.cycled (s : State) : State := s.fetched.executed s.nextInstr

/-- R74, R75: a cycle from a boundary answers the cycled state, terminal exactly for HLT. -/
theorem cycle_eq_cycled {s : State} (hb : s.AtBoundary) :
    cycle s = .next { state := s.cycled, terminal := s.nextInstr.isHlt } := by
  rw [cycle, fetchCycle_eq_fetched hb, andThen_of_next]
  exact executeCycle_eq_executed rfl

/-- R112: the tabled number of steps from a boundary leads to the cycled state. -/
theorem runSteps_cycleTStates {s : State} (hb : s.AtBoundary) : runSteps (cycleTStates s.nextInstr) s = .next s.cycled := by
  rw [cycleTStates_eq, runSteps_add, runSteps_three_of_atBoundary hb, andThen_of_next]
  exact runSteps_executeTStates (s := s.fetched) rfl

/-- A cycle from a boundary with the byte of `i` at PC, by the record that the executed state of `i` is. -/
theorem cycle_of_nextInstr {s t : State} {i : Instr} (hb : s.AtBoundary) (hi : s.nextInstr = i)
    (ht : s.fetched.executed i = t) : cycle s = .next { state := t, terminal := i.isHlt } := by
  rw [cycle_eq_cycled hb, State.cycled, hi, ht]

/-- Settles O47: the executed state of LDA. -/
theorem ldaCycleEndState : Obligations.LdaCycleEndState := by
  unfold Obligations.LdaCycleEndState
  exact fun s a hb hi => cycle_of_nextInstr hb hi rfl

/-- Settles O48: the executed states of ADD and SUB. -/
theorem addAndSubCycleEndState : Obligations.AddAndSubCycleEndState := by
  unfold Obligations.AddAndSubCycleEndState
  exact fun s a hb => ⟨fun hi => cycle_of_nextInstr hb hi rfl, fun hi => cycle_of_nextInstr hb hi rfl⟩

/-- R92: the executed state of an unrecognized row has the empty set and T6, and nothing else changed. -/
theorem State.executed_of_mem_unrecognizedRows {i : Instr} {x : Nibble} (hi : i ∈ unrecognizedRows x) (s : State) :
    s.executed i = { s with sig := .none, phase := .T6 } ∧ i.isHlt = false := by
  obtain ⟨hop, -⟩ := (mem_unrecognizedRows_iff i x).mp hi
  cases i with
  | lda | add | sub | out | hlt => simp [Instr.opcode] at hop
  | _ => exact ⟨rfl, rfl⟩

/-- Settles O49: the executed states of OUT, of HLT and of the unrecognized rows. -/
theorem outHltAndNoOpCycleEndState : Obligations.OutHltAndNoOpCycleEndState := by
  unfold Obligations.OutHltAndNoOpCycleEndState
  intro s op x hb hcell
  have hi : s.nextInstr = instrOfFields op x := by rw [State.nextInstr, hcell, decodeByte_append]
  have hfetched : s.fetched = { s with pc := s.pc + 1, mar := s.pc, ir := op ++ x, sig := .none, phase := .T3 } := by
    rw [State.fetched, hcell]
  refine ⟨?_, ?_, fun hop => ?_⟩
  · rintro rfl
    exact cycle_of_nextInstr (i := .out x) hb hi (by rw [hfetched]; rfl)
  · rintro rfl
    exact cycle_of_nextInstr (i := .hlt x) hb hi (by rw [hfetched]; rfl)
  · have hrow : instrOfFields op x ∈ unrecognizedRows x := decodeByte_append op x ▸ unrecognizedTStates.1 op x hop
    obtain ⟨hexec, hnot⟩ := s.fetched.executed_of_mem_unrecognizedRows hrow
    rw [← hnot]
    exact cycle_of_nextInstr hb hi (by rw [hexec, hfetched])

/-- Settles O50: the cycled state. -/
theorem cycleTakesTheTabledTStates : Obligations.CycleTakesTheTabledTStates := by
  unfold Obligations.CycleTakesTheTabledTStates
  exact fun s hb => ⟨_, cycle_eq_cycled hb, runSteps_cycleTStates hb, rfl⟩

end Sys2Proof.Machine
end

section
/-! `run_to_halt`: a run of cycles is decided by the first HLT in address order; with the statements of spec/40_sequencer.md
R71, R73 and R76 and of spec/95_test_vectors.md X8. -/

namespace Sys2Proof.Machine

/-! ## The state after a number of cycles -/

@[simp] theorem State.cycled_pc (s : State) : s.cycled.pc = s.pc + 1 := State.executed_pc _ _

@[simp] theorem State.cycled_mem (s : State) : s.cycled.mem = s.mem := State.executed_mem _ _

/-- R112: the cycled state is Halted after HLT and at T6 after every other instruction. -/
theorem State.cycled_phase (s : State) : s.cycled.phase = if s.nextInstr.isHlt then .Halted else .T6 :=
  State.executed_phase _ _

/-- R91: HLT leaves MAR at its own address. -/
theorem State.cycled_mar_of_hlt {s : State} (h : s.nextInstr.isHlt = true) : s.cycled.mar = s.pc := by
  rw [State.cycled]
  cases hi : s.nextInstr with
  | hlt x => rfl
  | _ => simp [hi, Instr.isHlt] at h

/-- R71: after `k` cycles PC is `k` cells on. -/
theorem iterate_cycled_pc (s : State) (k : Nat) : (State.cycled^[k] s).pc = s.pc + BitVec.ofNat 4 k := by
  induction k with
  | zero => exact (BitVec.add_zero s.pc).symm
  | succ k ih =>
    rw [Function.iterate_succ_apply', State.cycled_pc, ih, BitVec.ofNat_add, BitVec.add_assoc]
    rfl

/-- R31: cycles keep memory. -/
theorem iterate_cycled_mem (s : State) (k : Nat) : (State.cycled^[k] s).mem = s.mem := by
  induction k with
  | zero => rfl
  | succ k ih => rw [Function.iterate_succ_apply', State.cycled_mem, ih]

/-- Does the cell `k` cells on from PC hold HLT? -/
def State.hltAhead (s : State) (k : Nat) : Bool := (decodeByte (s.mem.read (s.pc + BitVec.ofNat 4 k))).isHlt

/-- R71: the instruction of the cycle after `k` cycles is that of the cell `k` cells on. -/
theorem iterate_cycled_nextInstr_isHlt (s : State) (k : Nat) : (State.cycled^[k] s).nextInstr.isHlt = s.hltAhead k := by
  rw [State.nextInstr, iterate_cycled_pc, iterate_cycled_mem, State.hltAhead]

/-- R59: a cycle of any instruction but HLT ends at T6. -/
theorem iterate_cycled_phase_T6 {s : State} {k : Nat} (h : s.hltAhead k = false) : (State.cycled^[k + 1] s).phase = .T6 := by
  rw [Function.iterate_succ_apply', State.cycled_phase, iterate_cycled_nextInstr_isHlt, h]
  rfl

/-- R74, R76: where no HLT is among the cells before the `k`-th, the engine is at a boundary after `k` cycles. -/
theorem iterate_cycled_atBoundary {s : State} {k : Nat} (hb : s.AtBoundary) (hno : ∀ j, j < k → s.hltAhead j = false) :
    (State.cycled^[k] s).AtBoundary := by
  cases k with
  | zero => exact hb
  | succ k => exact .inr (iterate_cycled_phase_T6 (hno k (Nat.lt_succ_self k)))

/-! ## The steps and the loop over a number of cycles -/

/-- R112: where no HLT is among the cells before the `k`-th, 6 steps a cycle lead to the state after `k` cycles. -/
theorem runSteps_iterate_cycled {s : State} {k : Nat} (hb : s.AtBoundary) (hno : ∀ j, j < k → s.hltAhead j = false) :
    runSteps (6 * k) s = .next (State.cycled^[k] s) := by
  induction k with
  | zero => rfl
  | succ k ih =>
    have hlt : ∀ j, j < k → s.hltAhead j = false := fun j hj => hno j (Nat.lt_succ_of_lt hj)
    have hcycle := runSteps_cycleTStates (iterate_cycled_atBoundary hb hlt)
    rw [cycleTStates, iterate_cycled_nextInstr_isHlt, hno k (Nat.lt_succ_self k)] at hcycle
    rw [Nat.mul_succ, runSteps_add, ih hlt, andThen_of_next, Function.iterate_succ_apply']
    exact hcycle

/-- R76: one cycle of the loop, by whether the instruction at PC is HLT. -/
theorem runCycles_succ {s : State} (hb : s.AtBoundary) (n p : Nat) :
    runCycles (n + 1) p s =
      if s.nextInstr.isHlt then .next { state := s.cycled, halted := true, cycles := p + 1 }
      else runCycles n (p + 1) s.cycled := by
  rw [runCycles, cycle_eq_cycled hb, andThen_of_next]

/-- R76: where no HLT is among the cells before the `k`-th, the loop performs `k` cycles and goes on. -/
theorem runCycles_skip {s : State} {k : Nat} (hb : s.AtBoundary) (hno : ∀ j, j < k → s.hltAhead j = false) (n p : Nat) :
    runCycles (k + n) p s = runCycles n (p + k) (State.cycled^[k] s) := by
  induction k generalizing n with
  | zero => rw [Nat.zero_add, Nat.add_zero]; rfl
  | succ k ih =>
    have hlt : ∀ j, j < k → s.hltAhead j = false := fun j hj => hno j (Nat.lt_succ_of_lt hj)
    rw [Nat.add_assoc, Nat.add_comm 1 n, ih hlt, runCycles_succ (iterate_cycled_atBoundary hb hlt),
      iterate_cycled_nextInstr_isHlt, hno k (Nat.lt_succ_self k), ← Function.iterate_succ_apply' State.cycled]
    rfl

/-! ## run_to_halt -/

/-- R76: from a cycle boundary `run_to_halt` is its loop. -/
theorem runToHalt_of_atBoundary {s : State} (hb : s.AtBoundary) (n : Nat) : runToHalt n s = runCycles n 0 s := by
  obtain hp | hp := hb <;> rw [runToHalt, hp]

/-- R71, R76: the first HLT in address order, `k` cells on and below the cap, halts the run in its cycle. -/
theorem runToHalt_of_first_hlt {s : State} {n k : Nat} (hb : s.AtBoundary) (hk : k < n)
    (hno : ∀ j, j < k → s.hltAhead j = false) (hhlt : s.hltAhead k = true) :
    runToHalt n s = .next { state := State.cycled^[k + 1] s, halted := true, cycles := k + 1 } := by
  obtain ⟨m, rfl⟩ := Nat.exists_eq_add_of_lt hk
  rw [runToHalt_of_atBoundary hb, Nat.add_assoc, runCycles_skip hb hno, runCycles_succ (iterate_cycled_atBoundary hb hno),
    iterate_cycled_nextInstr_isHlt, hhlt, if_pos rfl, Nat.zero_add, ← Function.iterate_succ_apply' State.cycled]

/-- R76: with no HLT below the cap the run is capped. -/
theorem runToHalt_of_no_hlt {s : State} {n : Nat} (hb : s.AtBoundary) (hno : ∀ j, j < n → s.hltAhead j = false) :
    runToHalt n s = .next { state := State.cycled^[n] s, halted := false, cycles := n } := by
  have hskip := runCycles_skip hb hno 0 0
  rw [Nat.add_zero, Nat.zero_add] at hskip
  rw [runToHalt_of_atBoundary hb, hskip, runCycles]

/-- R112: the HLT `k` cells on, with none before it, halts the engine after 6 steps a cycle before it and 4 of its own. -/
theorem runSteps_to_first_hlt {s : State} {k : Nat} (hb : s.AtBoundary) (hno : ∀ j, j < k → s.hltAhead j = false)
    (hhlt : s.hltAhead k = true) : runSteps (6 * k + 4) s = .next (State.cycled^[k + 1] s) := by
  have hcycle := runSteps_cycleTStates (iterate_cycled_atBoundary hb hno)
  rw [cycleTStates, iterate_cycled_nextInstr_isHlt, hhlt, if_pos rfl] at hcycle
  rw [runSteps_add, runSteps_iterate_cycled hb hno, andThen_of_next, hcycle, Function.iterate_succ_apply']

/-- Settles O33: the run ends in the state after the cycle of the first HLT. -/
theorem firstHltInAddressOrderHalts : Obligations.FirstHltInAddressOrderHalts := by
  unfold Obligations.FirstHltInAddressOrderHalts
  intro s n k hb hk hno hhlt
  have hmar : (State.cycled^[k + 1] s).mar = (State.cycled^[k] s).pc := by
    rw [Function.iterate_succ_apply']
    exact State.cycled_mar_of_hlt ((iterate_cycled_nextInstr_isHlt s k).trans hhlt)
  refine ⟨_, runToHalt_of_first_hlt hb hk hno hhlt, hmar.trans (iterate_cycled_pc s k), ?_⟩
  rw [hmar, Function.iterate_succ_apply', State.cycled_pc]

/-- Settles O34: with no HLT in memory there is none below the cap. -/
theorem memoryWithoutHltIsCapped : Obligations.MemoryWithoutHltIsCapped := by
  unfold Obligations.MemoryWithoutHltIsCapped
  intro s n hb hno
  refine ⟨_, runToHalt_of_no_hlt hb fun j _ => hno _, iterate_cycled_pc s n, fun hn => ?_⟩
  obtain ⟨m, rfl⟩ := Nat.exists_eq_add_one.mpr hn
  exact iterate_cycled_phase_T6 (hno _)

/-- R71: among the cells below the cap there is a first HLT, or there is none. -/
theorem first_hlt_or_none (s : State) (n : Nat) :
    (∃ k, k < n ∧ (∀ j, j < k → s.hltAhead j = false) ∧ s.hltAhead k = true) ∨ ∀ j, j < n → s.hltAhead j = false := by
  by_cases h : ∃ k, s.hltAhead k = true ∧ k < n
  · obtain ⟨hhlt, hk⟩ := Nat.find_spec h
    refine .inl ⟨Nat.find h, hk, fun j hj => ?_, hhlt⟩
    have hmin := Nat.find_min h hj
    rw [not_and] at hmin
    exact Bool.eq_false_iff.mpr fun hj' => hmin hj' (hj.trans hk)
  · exact .inr fun j hj => Bool.eq_false_iff.mpr fun hj' => h ⟨j, hj', hj⟩

/-- Settles O31: the run is decided by the first HLT below the cap, or by there being none. -/
theorem runToHaltIsItsTStates : Obligations.RunToHaltIsItsTStates := by
  unfold Obligations.RunToHaltIsItsTStates
  intro n s hb
  obtain ⟨k, hk, hno, hhlt⟩ | hno := first_hlt_or_none s n
  · refine ⟨_, runToHalt_of_first_hlt hb hk hno hhlt, fun _ => ⟨Nat.succ_pos k, hk, ?_, ?_⟩, by simp⟩
    · rw [Function.iterate_succ_apply', State.cycled_phase, iterate_cycled_nextInstr_isHlt, hhlt, if_pos rfl]
    · exact runSteps_to_first_hlt hb hno hhlt
  · refine ⟨_, runToHalt_of_no_hlt hb hno, by simp, fun _ => ⟨rfl, ?_, fun hn => ?_, ?_⟩⟩
    · exact iterate_cycled_atBoundary hb hno
    · obtain ⟨m, rfl⟩ := Nat.exists_eq_add_one.mpr hn
      exact iterate_cycled_phase_T6 (hno m (Nat.lt_succ_self m))
    · exact runSteps_iterate_cycled hb hno

/-- R76: away from the cycle boundaries, and where the engine is not Halted, there is no `run_to_halt`. -/
theorem runToHalt_off_boundary {s : State} (hb : ¬s.AtBoundary) (hs : s.phase ≠ .Halted) (n : Nat) :
    runToHalt n s = .refused .runToHaltOffBoundary := by
  cases hp : s.phase
  case T0 => exact absurd (.inl hp) hb
  case T6 => exact absurd (.inr hp) hb
  case Halted => exact absurd hp hs
  all_goals rw [runToHalt, hp]

/-- Settles O32: the loop with no cycle left returns at once. -/
theorem runToHaltAtItsEdges : Obligations.RunToHaltAtItsEdges := by
  unfold Obligations.RunToHaltAtItsEdges
  exact fun s => ⟨fun hb => runToHalt_of_no_hlt hb fun _ hj => absurd hj (Nat.not_lt_zero _), runToHalt_off_boundary⟩

/-! ## The Halted engine -/

/-- R73: any number of steps of a Halted engine change nothing. -/
theorem runSteps_of_halted {s : State} (hp : s.phase = .Halted) (k : Nat) : runSteps k s = .next s := by
  induction k with
  | zero => rfl
  | succ k ih => rw [runSteps_succ, step_of_halted hp, andThen_of_next, ih]

/-- Settles O29, by what each operation answers on a Halted engine. -/
theorem haltedEngineIsFrozen : Obligations.HaltedEngineIsFrozen := by
  unfold Obligations.HaltedEngineIsFrozen
  intro s hp
  have hterminal : s.terminal = true := decide_eq_true hp
  refine ⟨?_, runSteps_of_halted hp, fetchCycle_of_halted hp, executeCycle_of_halted hp, runToHalt_of_halted hp⟩
  rw [driverStep_of_step (step_of_halted hp), hterminal]

end Sys2Proof.Machine
end

section
/-! The driver's moves as runs: every move but reset and the load is a number of steps; with the statements of
spec/20_memory.md R38 and spec/10_state.md R31, and those of construction, reset and the load. -/

namespace Sys2Proof.Machine

/-! ## Moves that are runs -/

/-- `t` is reached from `s` by some number of T-states. -/
def Reaches (s t : State) : Prop := ∃ k, runSteps k s = .next t

/-- No T-state reaches the state itself. -/
theorem Reaches.refl (s : State) : Reaches s s := ⟨0, rfl⟩

/-- One T-state more reaches what the rest reaches. -/
theorem Reaches.head {s t u : State} (h : step s = .next t) (htu : Reaches t u) : Reaches s u := by
  obtain ⟨k, hk⟩ := htu
  exact ⟨k + 1, by rw [runSteps_succ, h, andThen_of_next, hk]⟩

/-- T-states after T-states. -/
theorem Reaches.trans {s t u : State} (hst : Reaches s t) (htu : Reaches t u) : Reaches s u := by
  obtain ⟨j, hj⟩ := hst
  obtain ⟨k, hk⟩ := htu
  exact ⟨j + k, by rw [runSteps_add, hj, andThen_of_next, hk]⟩

/-- What every step keeps holds of every state reached. -/
theorem Reaches.keeps {P : State → Prop} (hstep : ∀ s t, P s → step s = .next t → P t) {s t : State} (h : Reaches s t)
    (hs : P s) : P t := by
  obtain ⟨k, hk⟩ := h
  exact runSteps_keeps hstep hs hk

/-- R74: `fetch_cycle` is a run. -/
theorem fetchCycle_reaches {s : State} {r : Stepped} (h : fetchCycle s = .next r) : Reaches s r.state := by
  obtain ⟨-, s₁, s₂, h₁, h₂, h₃, -⟩ | ⟨-, rfl⟩ := fetchCycle_next h
  · exact .head h₁ (.head h₂ (.head h₃ (.refl _)))
  · exact .refl s

/-- R75: stepping to the end of the cycle is a run. -/
theorem stepToCycleEnd_reaches {fuel : Nat} {s : State} {r : Stepped} (h : stepToCycleEnd fuel s = .next r) :
    Reaches s r.state := by
  induction fuel generalizing s with
  | zero =>
    cases h
    exact .refl _
  | succ fuel ih =>
    cases hp : s.phase <;> simp only [stepToCycleEnd, hp] at h
    case T6 | Halted =>
      cases h
      exact .refl _
    all_goals
      obtain ⟨t, ht, h⟩ := andThen_next h
      exact .head ht (ih h)

/-- R75: `execute_cycle` is a run. -/
theorem executeCycle_reaches {s : State} {r : Stepped} (h : executeCycle s = .next r) : Reaches s r.state := by
  obtain ⟨-, h⟩ | ⟨-, rfl⟩ := executeCycle_next h
  · exact stepToCycleEnd_reaches h
  · exact .refl s

/-- A cycle is a run. -/
theorem cycle_reaches {s : State} {r : Stepped} (h : cycle s = .next r) : Reaches s r.state := by
  obtain ⟨f, hf, h⟩ := cycle_next h
  exact (fetchCycle_reaches hf).trans (executeCycle_reaches h)

/-- R76: the loop of `run_to_halt` is a run. -/
theorem runCycles_reaches {n p : Nat} {s : State} {r : RunResult} (h : runCycles n p s = .next r) : Reaches s r.state := by
  induction n generalizing p s with
  | zero =>
    cases h
    exact .refl _
  | succ n ih =>
    obtain ⟨c, hc, h⟩ := andThen_next h
    refine (cycle_reaches hc).trans ?_
    split at h
    · cases h
      exact .refl _
    · exact ih h

/-- R76: `run_to_halt` is a run. -/
theorem runToHalt_reaches {n : Nat} {s : State} {r : RunResult} (h : runToHalt n s = .next r) : Reaches s r.state := by
  cases hp : s.phase <;> simp only [runToHalt, hp] at h
  case T0 | T6 => exact runCycles_reaches h
  case Halted =>
    cases h
    exact .refl _
  all_goals cases h

/-- R82: every move of the driver but reset and the load is a run. -/
theorem drive_reaches {op : DriverOp} {s t : State} (hreset : op ≠ .reset) (hload : ∀ img, op ≠ .load img)
    (h : drive op s = .next t) : Reaches s t := by
  cases op with
  | step => exact .head h (.refl t)
  | fetchCycle =>
    obtain ⟨r, hr, h⟩ := andThen_next h
    cases h
    exact fetchCycle_reaches hr
  | executeCycle =>
    obtain ⟨r, hr, h⟩ := andThen_next h
    cases h
    exact executeCycle_reaches hr
  | runToHalt n =>
    obtain ⟨r, hr, h⟩ := andThen_next h
    cases h
    exact runToHalt_reaches hr
  | reset => exact absurd rfl hreset
  | load img => exact absurd rfl (hload img)

/-- What steps, reset and the load keep, every move of the driver keeps. -/
theorem drive_keeps {P : State → Prop} (hstep : ∀ s t, P s → step s = .next t → P t)
    (hreset : ∀ s, P s → P s.resetEngine) (hload : ∀ img s t, P s → load img s = .next t → P t) {op : DriverOp}
    {s t : State} (hs : P s) (h : drive op s = .next t) : P t := by
  by_cases hop : op = .reset
  · subst hop
    cases h
    exact hreset s hs
  by_cases himg : ∃ img, op = .load img
  · obtain ⟨img, rfl⟩ := himg
    exact hload img s t hs h
  · exact (drive_reaches hop (fun img hop' => himg ⟨img, hop'⟩) h).keeps hstep hs

/-! ## Memory, and the load -/

/-- Settles O13: runs and reset keep memory, and the load is made at T0. -/
theorem onlyTheLoadChangesMemory : Obligations.OnlyTheLoadChangesMemory := by
  unfold Obligations.OnlyTheLoadChangesMemory
  refine ⟨fun op s t hload h a => ?_, fun img s t h => (load_next h).1⟩
  have hmem : t.mem = s.mem := by
    by_cases hop : op = .reset
    · subst hop
      cases h
      rfl
    · obtain ⟨k, hk⟩ := drive_reaches hop hload h
      exact runSteps_next_mem hk
  rw [hmem]

/-- R38: the load at T0 replaces memory. -/
theorem load_of_T0 {s : State} (hp : s.phase = .T0) (img : Image) :
    load img s = .next { s with mem := Memory.ofImage img } := by
  rw [load, hp]

/-- R38, D8: there is no load at any other phase. -/
theorem load_off_T0 {s : State} (hp : s.phase ≠ .T0) (img : Image) : load img s = .refused .loadOffIdle := by
  cases h : s.phase
  case T0 => exact absurd h hp
  all_goals rw [load, h]

/-- Settles O12: the load by its phase, and the cells of an image. -/
theorem loadWritesEveryCellAndOnlyAtT0 : Obligations.LoadWritesEveryCellAndOnlyAtT0 := by
  unfold Obligations.LoadWritesEveryCellAndOnlyAtT0
  exact ⟨fun img s hp => ⟨load_of_T0 hp img, Memory.read_ofImage img⟩, fun img s hp => load_off_T0 hp img,
    State.resetEngine_mem⟩

/-- Settles O52: reset is the record of R107, at T0, where the load is admitted. -/
theorem resetReinitializesAllButMemory : Obligations.ResetReinitializesAllButMemory := by
  unfold Obligations.ResetReinitializesAllButMemory
  exact fun s => ⟨rfl, load_of_T0 s.resetEngine_phase⟩

/-- Settles O10: the memory of the zero image lists no cell. -/
theorem hostResetIsConstructionWithTheZeroImage : Obligations.HostResetIsConstructionWithTheZeroImage := by
  unfold Obligations.HostResetIsConstructionWithTheZeroImage
  have hmem : Memory.ofImage (Vector.replicate 16 0) = [] := by decide
  rw [State.construct, hmem, State.reset]

end Sys2Proof.Machine
end

section
/-! The invariant of the engine: construction, reset and the load establish it, every step keeps each part of it, and from a
coherent state every step answers; with the statements of spec/40_sequencer.md R59 and R79 and of spec/60_exceptions.md R93 on
it. -/

namespace Sys2Proof.Machine

/-! ## The engine at rest -/

/-- R34: the state after reset is coherent where memory is canonical: at T0 the invariant speaks of the reset values alone. -/
theorem coherent_resetEngine {s : State} (hmem : s.mem.wf = true) : s.resetEngine.Coherent := by
  refine ⟨hmem, rfl, fun _ => ⟨rfl, rfl, rfl, rfl, rfl, rfl⟩, ?_, ?_, ?_, ?_⟩ <;>
    simp [State.HltDiscipline, State.IrFetched, State.MarTracks, State.DataTracks, State.Executing]

/-- R34: a coherent state at T0 is the state after its own reset. -/
theorem resetEngine_eq_self_of_T0 {s : State} (hs : s.Coherent) (hp : s.phase = .T0) : s.resetEngine = s := by
  obtain ⟨-, hsig, hzero, -⟩ := hs
  obtain ⟨hpc, hmar, hacc, hir, htmp, hout⟩ := hzero hp
  rw [State.SigTabled, hp] at hsig
  cases s
  simp_all [State.resetEngine, signalTable]

/-- R106: construction with any image is coherent. -/
theorem coherent_construct (img : Image) : (State.construct img).Coherent :=
  coherent_resetEngine (s := State.construct img) (Memory.ofImage_wf img)

/-- R38: a coherent state after a load is coherent: the engine was at rest, and the image's memory is canonical. -/
theorem coherent_of_load {img : Image} {s t : State} (hs : s.Coherent) (h : load img s = .next t) : t.Coherent := by
  obtain ⟨hp, rfl⟩ := load_next h
  rw [← resetEngine_eq_self_of_T0 hs hp]
  exact coherent_construct img

/-- Settles O54: both are states after a reset, with canonical memory. -/
theorem constructionIsCoherent : Obligations.ConstructionIsCoherent := by
  unfold Obligations.ConstructionIsCoherent
  exact ⟨coherent_resetEngine (s := State.reset) rfl, coherent_construct⟩

/-! ## What a step keeps of the invariant -/

/-- R62: a step keeps the matrix tabled. -/
theorem sigTabled_of_step {s t : State} (hs : s.SigTabled) (h : step s = .next t) : t.SigTabled := by
  by_cases hp : s.phase = .Halted
  · rw [step_of_halted hp] at h
    exact Host.Outcome.next.inj h ▸ hs
  · exact assertedSetIsTheTabledOne s t hp h

/-- R28, R59: no step leads to T0. -/
theorem phaseAfter_ne_T0 (p : Phase) (i : Instr) : phaseAfter p i ≠ .T0 := by
  cases p
  case T3 => cases hi : i.isHlt <;> simp [phaseAfter, hi]
  all_goals simp [phaseAfter]

/-- R59: a step keeps Halted for HLT, and T4, T5 and T6 for every other instruction. -/
theorem hltDiscipline_of_step {s t : State} (hs : s.HltDiscipline) (h : step s = .next t) : t.HltDiscipline := by
  refine ⟨fun ht => ?_, (phaseMovesAsTabled s t h).2⟩
  by_cases hp : s.phase = .Halted
  · rw [step_of_halted hp] at h
    exact Host.Outcome.next.inj h ▸ hs.1 hp
  · obtain ⟨hT3, hi⟩ := haltedIsEnteredByHltAndLeftByResetAlone.1 s t hp h ht
    rw [step_eq_exec (.inl hT3)] at h
    rwa [exec_next_ir h]

/-- R21: no execute T-state writes PC. -/
theorem pc_of_exec_step {s t : State} (hp : s.phase = .T3 ∨ s.phase = .T4 ∨ s.phase = .T5) (h : step s = .next t) :
    t.pc = s.pc := by
  refine (pcChangesOnlyAtT2 s t h).2 fun ht => ?_
  have hT1 : s.phase = .T1 := phaseAfter_eq_T2_iff.mp ((step_next_phase h).symm.trans ht)
  simp [hT1] at hp

/-- R55: a step keeps in IR the byte of the cell before PC: T2 fetches it, and no other T-state writes IR, PC or the cell. -/
theorem irFetched_of_step {s t : State} (hir : s.IrFetched) (hmar : s.MarTracks) (h : step s = .next t) : t.IrFetched := by
  intro ht
  obtain ⟨-, rfl⟩ | ⟨hp, rfl⟩ | ⟨hp, rfl⟩ | ⟨hp, hexec⟩ | ⟨-, rfl⟩ := step_next h
  · simp [fetchT1, State.Executing] at ht
  · rw [fetchT2_eq, hmar.1 hp]
    exact congrArg s.mem.read (BitVec.add_sub_cancel s.pc 1).symm
  · rw [fetchT3_eq]
    exact hir (.inl hp)
  · rw [exec_next_ir hexec, step_next_mem h, pc_of_exec_step hp h]
    obtain hp | hp | hp := hp
    exacts [hir (.inr (.inl hp)), hir (.inr (.inr (.inl (.inl hp)))), hir (.inr (.inr (.inl (.inr (.inl hp)))))]
  · exact hir ht

/-- R16: T4 of LDA, ADD and SUB loads MAR from the operand, and no other execute T-state writes MAR. -/
theorem exec_next_mar {i : Instr} {s t : State} (h : exec i s = .next t) :
    t.mar = if s.phase = .T3 ∧ i.usesMemory = true then i.operand else s.mar := by
  cases i with
  | lda a =>
    obtain ⟨hp, rfl⟩ | ⟨hp, rfl⟩ | ⟨hp, rfl⟩ | ⟨hp, rfl⟩ := exec_lda_next h <;> simp [hp, Instr.usesMemory, Instr.operand]
  | add a =>
    obtain ⟨hp, rfl⟩ | ⟨hp, rfl⟩ | ⟨hp, rfl⟩ | ⟨hp, rfl⟩ := exec_add_next h <;> simp [hp, Instr.usesMemory, Instr.operand]
  | sub a =>
    obtain ⟨hp, rfl⟩ | ⟨hp, rfl⟩ | ⟨hp, rfl⟩ | ⟨hp, rfl⟩ := exec_sub_next h <;> simp [hp, Instr.usesMemory, Instr.operand]
  | out x => obtain ⟨-, rfl⟩ | ⟨-, rfl⟩ | ⟨-, rfl⟩ | ⟨-, rfl⟩ := exec_out_next h <;> simp [Instr.usesMemory]
  | hlt x => obtain ⟨-, rfl⟩ | ⟨-, rfl⟩ := exec_hlt_next h <;> simp [Instr.usesMemory]
  | _ x => obtain ⟨-, rfl⟩ | ⟨-, rfl⟩ | ⟨-, rfl⟩ | ⟨-, rfl⟩ := noOpCycle_next h <;> simp [Instr.usesMemory]

/-- R16: after an execute T-state MAR is the operand where the instruction uses one, and the instruction's own address
elsewhere. -/
theorem mar_of_exec_step {s t : State} (hmar : s.MarTracks) (hp : s.phase = .T3 ∨ s.phase = .T4 ∨ s.phase = .T5)
    (h : exec (decodeByte s.ir) s = .next t) :
    t.mar = if (decodeByte s.ir).usesMemory then operandField s.ir else s.pc - 1 := by
  rw [exec_next_mar h, decodeByte_operand]
  obtain hp | hp | hp := hp
  · rw [hmar.2.1 (.inr (.inl hp))]
    simp [hp]
  · rw [hmar.2.2 (.inl hp)]
    simp [hp]
  · rw [hmar.2.2 (.inr (.inl hp))]
    simp [hp]

/-- R59: an execute T-state leads to T4, T5 or T6, or HLT's leads to Halted. -/
theorem executing_or_halted_of_exec {i : Instr} {s t : State} (hp : s.phase = .T3 ∨ s.phase = .T4 ∨ s.phase = .T5)
    (h : exec i s = .next t) : t.Executing ∨ (t.phase = .Halted ∧ i.isHlt = true) := by
  rw [State.Executing, exec_next_phase h]
  obtain hp | hp | hp := hp <;> rw [hp]
  · cases hi : i.isHlt <;> simp [phaseAfter, hi]
  · exact .inl (.inr (.inl rfl))
  · exact .inl (.inr (.inr rfl))

/-- R53: HLT does not use its operand as an address. -/
theorem usesMemory_eq_false_of_isHlt {i : Instr} (hi : i.isHlt = true) : i.usesMemory = false := by
  cases i with
  | hlt x => rfl
  | _ => cases hi

/-- R16, R37: a step keeps what MAR holds. -/
theorem marTracks_of_step {s t : State} (hmar : s.MarTracks) (h : step s = .next t) : t.MarTracks := by
  obtain ⟨-, rfl⟩ | ⟨hp, rfl⟩ | ⟨hp, rfl⟩ | ⟨hp, hexec⟩ | ⟨-, rfl⟩ := step_next h
  · simp [State.MarTracks, State.Executing, fetchT1_eq]
  · simp [State.MarTracks, State.Executing, fetchT2_eq, hmar.1 hp]
  · simp [State.MarTracks, State.Executing, fetchT3_eq, hmar.2.1 (.inl hp)]
  · have htmar := mar_of_exec_step hmar hp hexec
    rw [State.MarTracks, exec_next_ir hexec, pc_of_exec_step hp h, htmar]
    obtain ht | ⟨ht, hi⟩ := executing_or_halted_of_exec hp hexec
    · obtain ht | ht | ht := ht <;> simp [State.Executing, ht]
    · simp [State.Executing, ht, usesMemory_eq_false_of_isHlt hi]
  · exact hmar

/-- R16: from T4 on, MAR is the operand of an instruction of opcode 0x1, 0x2 or 0x3. -/
theorem mar_eq_operand {s : State} (hmar : s.MarTracks) (hp : s.Executing)
    (hop : opcodeField s.ir = 0x1 ∨ opcodeField s.ir = 0x2 ∨ opcodeField s.ir = 0x3) : s.mar = operandField s.ir := by
  rw [hmar.2.2 hp, if_pos ((decodeByte_usesMemory s.ir).mpr hop)]

/-- R84: a step keeps ACC the operand's cell from T5 of LDA on. -/
theorem acc_of_step_lda {s t : State} (hmar : s.MarTracks) (hdata : s.DataTracks) (h : step s = .next t)
    (ht : t.phase = .T5 ∨ t.phase = .T6) (hop : opcodeField t.ir = 0x1) : t.acc = t.mem.read (operandField t.ir) := by
  have hi := decodeByte_of_opcode_1 hop
  obtain ht | ht := ht
  · obtain ⟨hp, hexec⟩ := exec_of_step_T5 h ht hi
    have hir := exec_next_ir hexec
    rw [hir] at hop
    rw [exec_lda_of_T4 hp] at hexec
    rw [step_next_mem h, hir, ← mar_eq_operand hmar (.inl hp) (.inl hop), ← Host.Outcome.next.inj hexec]
  · obtain ⟨hp, hexec⟩ := exec_of_step_T6 h ht hi
    have hir := exec_next_ir hexec
    rw [hir] at hop
    rw [exec_lda_of_T5 hp] at hexec
    rw [step_next_mem h, hir, ← hdata.1 (.inl hp) hop, ← Host.Outcome.next.inj hexec]

/-- R88, R89: T5 of ADD and SUB alike loads TMP from the cell at MAR, and T6 keeps it. -/
theorem exec_add_or_sub_next_tmp {i : Instr} {s t : State} (hop : i.opcode = 0x2 ∨ i.opcode = 0x3)
    (h : exec i s = .next t) : t.tmp = if s.phase = .T4 then s.mem.read s.mar else s.tmp := by
  cases i with
  | add a => obtain ⟨hp, rfl⟩ | ⟨hp, rfl⟩ | ⟨hp, rfl⟩ | ⟨hp, rfl⟩ := exec_add_next h <;> simp [hp]
  | sub a => obtain ⟨hp, rfl⟩ | ⟨hp, rfl⟩ | ⟨hp, rfl⟩ | ⟨hp, rfl⟩ := exec_sub_next h <;> simp [hp]
  | _ => simp [Instr.opcode] at hop

/-- R88, R89: a step keeps TMP the operand's cell from T5 of ADD and SUB on. -/
theorem tmp_of_step_add_or_sub {s t : State} (hmar : s.MarTracks) (hdata : s.DataTracks) (h : step s = .next t)
    (ht : t.phase = .T5 ∨ t.phase = .T6) (hop : opcodeField t.ir = 0x2 ∨ opcodeField t.ir = 0x3) :
    t.tmp = t.mem.read (operandField t.ir) := by
  rw [← decodeByte_opcode] at hop
  obtain ht | ht := ht
  · obtain ⟨hp, hexec⟩ := exec_of_step_T5 h ht rfl
    have hir := exec_next_ir hexec
    rw [exec_add_or_sub_next_tmp hop hexec, if_pos hp, step_next_mem h, hir]
    rw [decodeByte_opcode, hir] at hop
    rw [mar_eq_operand hmar (.inl hp) (.inr hop)]
  · obtain ⟨hp, hexec⟩ := exec_of_step_T6 h ht rfl
    have hir := exec_next_ir hexec
    rw [exec_add_or_sub_next_tmp hop hexec, if_neg (by simp [hp]), step_next_mem h, hir]
    rw [decodeByte_opcode, hir] at hop
    exact hdata.2.1 (.inl hp) hop

/-- R90: a step keeps OUT equal to ACC from T4 of OUT on. -/
theorem out_of_step_out {s t : State} (hdata : s.DataTracks) (h : step s = .next t) (ht : t.Executing)
    (hop : opcodeField t.ir = 0xE) : t.out = t.acc := by
  have hexec := exec_of_step_executing h ht
  have hir := exec_next_ir hexec
  rw [hir] at hop
  rw [decodeByte_of_opcode_E hop] at hexec
  obtain ⟨hp, rfl⟩ | ⟨hp, rfl⟩ | ⟨hp, rfl⟩ | ⟨hp, rfl⟩ := exec_out_next hexec
  · rfl
  · exact hdata.2.2 (.inl hp) hop
  · exact hdata.2.2 (.inr (.inl hp)) hop
  · exact hdata.2.2 ht hop

/-! ## The invariant, through every move -/

/-- R59, R62: every step keeps each part of the invariant. -/
theorem coherent_of_step (s t : State) (hs : s.Coherent) (h : step s = .next t) : t.Coherent := by
  obtain ⟨hmem, hsig, -, hhlt, hir, hmar, hdata⟩ := hs
  have hT0 : t.phase ≠ .T0 := step_next_phase h ▸ phaseAfter_ne_T0 _ _
  exact ⟨(step_next_mem h).symm ▸ hmem, sigTabled_of_step hsig h, fun ht => absurd ht hT0, hltDiscipline_of_step hhlt h,
    irFetched_of_step hir hmar h, marTracks_of_step hmar h, acc_of_step_lda hmar hdata h,
    tmp_of_step_add_or_sub hmar hdata h, out_of_step_out hdata h⟩

/-- Settles O55, one lemma for each part of the invariant. -/
theorem everyStepKeepsCoherence : Obligations.EveryStepKeepsCoherence := by
  unfold Obligations.EveryStepKeepsCoherence
  exact coherent_of_step

/-- Settles O56: steps, reset and the load keep the invariant, and every other move is a run. -/
theorem everyDriverMoveKeepsCoherence : Obligations.EveryDriverMoveKeepsCoherence := by
  unfold Obligations.EveryDriverMoveKeepsCoherence
  exact fun op s t =>
    drive_keeps coherent_of_step (fun _ hs => coherent_resetEngine hs.1) (fun _ _ _ hs h => coherent_of_load hs h)

/-! ## Progress -/

/-- R72: from T3, T4 and T5 the dispatch answers a state where each of its T-states does. -/
theorem executeState_answers {s a b c : State} (hp : s.phase = .T3 ∨ s.phase = .T4 ∨ s.phase = .T5) :
    ∃ t, executeState s (.next a) (.next b) (.next c) = .next t := by
  obtain hp | hp | hp := hp
  exacts [⟨a, executeState_of_T3 hp ..⟩, ⟨b, executeState_of_T4 hp ..⟩, ⟨c, executeState_of_T5 hp ..⟩]

/-- R84, R88 to R90, R92: every instruction but HLT has all three execute T-states. -/
theorem exec_answers_of_not_hlt {i : Instr} {s : State} (hp : s.phase = .T3 ∨ s.phase = .T4 ∨ s.phase = .T5)
    (hi : i.isHlt = false) : ∃ t, exec i s = .next t := by
  cases i with
  | hlt x => cases hi
  | _ => exact executeState_answers hp

/-- R79: where HLT is under execution at T3 alone, every step answers a state. -/
theorem step_answers {s : State} (hs : s.HltDiscipline) : ∃ t, step s = .next t := by
  cases hp : s.phase
  case T0 | T6 => exact ⟨_, step_of_atBoundary (by simp [State.AtBoundary, hp])⟩
  case T1 => exact ⟨_, step_of_T1 hp⟩
  case T2 => exact ⟨_, step_of_T2 hp⟩
  case T3 =>
    cases hi : (decodeByte s.ir).isHlt
    · rw [step_eq_exec (.inl hp)]
      exact exec_answers_of_not_hlt (.inl hp) hi
    · exact ⟨_, step_of_hlt hp hi⟩
  case T4 =>
    rw [step_eq_exec (.inr (.inl hp))]
    exact exec_answers_of_not_hlt (.inr (.inl hp)) (hs.2 (.inl hp))
  case T5 =>
    rw [step_eq_exec (.inr (.inr hp))]
    exact exec_answers_of_not_hlt (.inr (.inr hp)) (hs.2 (.inr (.inl hp)))
  case Halted => exact ⟨s, step_of_halted hp⟩

/-- R59: every phase but Halted moves to another one. -/
theorem phaseAfter_ne_self {p : Phase} (hp : p ≠ .Halted) (i : Instr) : phaseAfter p i ≠ p := by
  cases p
  case T3 => cases hi : i.isHlt <;> simp [phaseAfter, hi]
  case Halted => exact absurd rfl hp
  all_goals simp [phaseAfter]

/-- Settles O51: the type of faults is empty; a coherent state's step answers, and the phase moves as tabled. -/
theorem stepAlwaysAnswersANextState : Obligations.StepAlwaysAnswersANextState := by
  unfold Obligations.StepAlwaysAnswersANextState
  refine ⟨fun s r => (nomatch r), fun s hs => ?_⟩
  obtain ⟨-, -, -, hhlt, -⟩ := hs
  obtain ⟨t, h⟩ := step_answers hhlt
  exact ⟨t, h, fun hp => step_next_phase h ▸ phaseAfter_ne_self hp _⟩

/-- R79: a run of any length from a coherent state answers a state. -/
theorem safeRun_of_coherent {s : State} (hs : s.Coherent) (k : Nat) : SafeRun k s := by
  induction k generalizing s with
  | zero => exact ⟨s, rfl⟩
  | succ k ih =>
    obtain ⟨t, h, -⟩ := stepAlwaysAnswersANextState.2 s hs
    obtain ⟨u, hu⟩ := ih (coherent_of_step s t hs h)
    exact ⟨u, by rw [runSteps_succ, h, andThen_of_next, hu]⟩

/-- Settles O57: progress and preservation, step by step. -/
theorem coherentRunsAreSafe : Obligations.CoherentRunsAreSafe := by
  unfold Obligations.CoherentRunsAreSafe
  exact fun k s hs => ⟨safeRun_of_coherent hs k, fun t => runSteps_keeps coherent_of_step hs⟩

end Sys2Proof.Machine
end
